-- ==== Sys2Proof/Word.lean ====
section
/-! DEFINITION. The fixed-width words of the block (00_scope.md R7, R11): every register value is an unsigned bit vector of
its stated width, bit 0 the least significant. -/

namespace Sys2Proof

/-- An operand byte, a table byte, a sound chip register (R7 `DIV_WIDTH`, R73). -/
abbrev Byte := BitVec 8

/-- A multiplier or a table entry, 8.8 fixed point (R7 `MULT_WIDTH`, R22). -/
abbrev Entry := BitVec 16

/-- A command word (R7 `CMD_WIDTH`, R70); FINFO has the same width (R25). -/
abbrev Word := BitVec 24

end Sys2Proof
end

