-- ==== Sys2Proof/Config.lean ====
section
/-! DEFINITION. The parameters of the hardware (00_scope.md R7) and of its environment, the sound chip and the host procedure
Initialize (48_env_chip_initializer.md R139, R153). The widths of R7 are the types of Word.lean. -/

namespace Sys2Proof

/-- R7 `TABLE_SIZE`. -/
abbrev Config.tableSize : Nat := 62

/-- R7 `NOTE_MAX`. -/
abbrev Config.noteMax : Nat := 61

/-- R7 `UNITY_INDEX`: the index whose multiplier is 1.00. -/
abbrev Config.unityIndex : Nat := 24

/-- R7 `STEPS_PER_OCTAVE`. -/
abbrev Config.stepsPerOctave : Nat := 12

/-- R7 `FRAC_BITS`. -/
abbrev Config.fracBits : Nat := 8

/-- A note index, the address of a table entry (R12, R50). -/
abbrev NoteIndex := Fin Config.tableSize

/-- The four voices of the sound chip (R12, R130). -/
inductive Voice where
  | v1 | v2 | v3 | v4
  deriving DecidableEq, Repr

/-- All four voices, in number order. -/
def Voice.all : List Voice := [.v1, .v2, .v3, .v4]

/-- The sound chip's registers by name (R131 to R135) and the auxiliary playback state (R136), which the write log of R154
names beside them. They have no addresses (R138). -/
inductive ChipReg where
  | interruptEnableMask
  | systemControl
  | voiceControl (v : Voice)
  | frequencyDivisor (v : Voice)
  | audioControlConfig
  | auxPlaybackState
  deriving DecidableEq, Repr

/-- R153 `SKCTL_INIT`, the one chip value the source gives: 0 enters initialization mode (R132, R142). -/
abbrev Config.skctlInit : Byte := 0x00

/-- The open parameters of one `Initialize` (R139, R153), the orders of the four writes of steps 3 and 4, which the source
does not state (R143, R144), and the settling delay between steps 7 and 8, counted in idle moments of the host, by default
none (R152). `PLAY_RATE` and `FAST_MODE` are ignored (R139). DESIGN CHOICE: log 11; for `skctlNormal` also log 17. -/
structure InitParams where
  voiceSilent  : Byte
  skctlNormal  : Byte
  audf1Val     : Byte
  audctlVal    : Byte
  irqMask      : Byte
  auxInit      : Byte
  voiceOrder   : List Voice := Voice.all
  divisorOrder : List Voice := Voice.all
  settleDelay  : Nat := 0
  deriving DecidableEq, Repr

end Sys2Proof
end

