-- ==== Sys2Proof/Machine/Generator.lean ====
section
/-! DEFINITION. The generator `G` of 20_memory.md R54, exact over the natural numbers; no floating point (R56, R103). -/

namespace Sys2Proof.Machine

/-- The greatest `r'` with `r'^12 ≤ t` that agrees with `r` above its low `k` bits, by trying the bits from the highest
down. -/
def iroot12From (t : Nat) : Nat → Nat → Nat
  | 0, r => r
  | k + 1, r => if (r + 2 ^ k) ^ Config.stepsPerOctave ≤ t then iroot12From t k (r + 2 ^ k) else iroot12From t k r

/-- `iroot12(t)`: the greatest integer `r` with `r^12 ≤ t` (R54); it has at most `log2 t / 12 + 1` bits. -/
def iroot12 (t : Nat) : Nat := iroot12From t (t.log2 / Config.stepsPerOctave + 1) 0

/-- The exponent of R54, `n + 84`: 2x = 2^(8+1) x 2^((n-24)/12), raised to the twelfth power, is 2^(12 x 9 + n - 24). -/
def generatorExponent (n : Nat) : Nat := n + (Config.stepsPerOctave * (Config.fracBits + 1) - Config.unityIndex)

/-- `G(n) = (iroot12(2^(n + 84)) + 1) div 2` (R54), the formula of R53 rounded to nearest. -/
def G (n : Nat) : Nat := (iroot12 (2 ^ generatorExponent n) + 1) / 2

/-- The entry the generator gives for a note index, as a 16-bit value (R54: it fits for n ≤ 119). -/
def generatedEntry (n : Nat) : Entry := BitVec.ofNat 16 (G n)

/-- `Generate()`: the list of all 62 generated entries (R100). -/
def generate : List Entry := (List.finRange Config.tableSize).map fun n => generatedEntry n.val

end Sys2Proof.Machine
end

