-- ==== Sys2Proof/Machine/State.lean ====
section
/-! DEFINITION. The state: the block's five registers and its ROM (10_state.md R20), the environment's registers
(48_env_chip_initializer.md R130 to R138), the host's pending actions and its position (10_state.md R30); the reasons a step
can stop; and the state after reset (10_state.md R34). -/

namespace Sys2Proof.Machine

/-- Memory as a canonical list of (address, byte) pairs: strictly rising addresses below 124, no pair equal to what an
unlisted address reads as (`Memory.wf`). The one space is the table space in its byte view (R50, R57). -/
abbrev Memory := List Host.Cell

/-- One byte register per voice (R133, R134). -/
structure PerVoice where
  v1 : Byte
  v2 : Byte
  v3 : Byte
  v4 : Byte
  deriving DecidableEq, Repr

/-- The sound chip's registers, by role (R131 to R136). -/
structure ChipRegs where
  /-- R131: write-only; this is the shadow of the last value written. -/
  interruptEnableMask   : Byte
  /-- R132: 0 is initialization mode. PRESUMED 8 bits wide: log 7. -/
  systemControl         : Byte
  /-- R133. -/
  voiceControl          : PerVoice
  /-- R134. -/
  frequencyDivisor      : PerVoice
  /-- R135. -/
  audioControlConfig    : Byte
  /-- R136: the engine's one small state byte. -/
  auxPlaybackState      : Byte
  /-- R132: initialization mode has put the internal clock dividers and noise-polynomial counters into their deterministic
  state. DESIGN CHOICE: log 8. -/
  countersDeterministic : Bool
  deriving DecidableEq, Repr

/-- One write of the host to the sound chip (R154: a (register, value) pair). -/
structure ChipWrite where
  reg   : ChipReg
  value : Byte
  deriving DecidableEq, Repr

/-- The sound chip as a record of registers plus a write log, oldest write first (R138). -/
structure Chip where
  regs : ChipRegs
  log  : List ChipWrite
  deriving DecidableEq, Repr

/-- One action of the environment agents (R8, R10). DESIGN CHOICE: log 1. -/
inductive HostInput where
  /-- The host presents a command word (R9, R72). -/
  | command (w : Word)
  /-- Reset is asserted (R190); a word presented with it is not accepted. -/
  | reset (presented : Option Word)
  /-- The host writes a sound chip register (R130, R138). -/
  | chipWrite (r : ChipReg) (v : Byte)
  /-- The host does nothing (R10; the settling delay of R152 is made of these). -/
  | idle
  deriving DecidableEq, Repr

/-- The four faults the block raises (R160). -/
inductive FaultCause where
  | illegalCommand
  | indexOutOfRange
  | multiplierNotValid
  | tableMismatch
  deriving DecidableEq, Repr

/-- Why a step answers no next state. -/
inductive Fault where
  /-- Raised by `step` when the block is halted and the host presents a word, or presents nothing more: no step is enabled
  (R164). It carries STATUS.CAUSE and FINFO as recorded. Safe: the model stops where the spec says no step exists. -/
  | halted (cause : BitVec 3) (finfo : Word)
  deriving DecidableEq, Repr

/-- Why an instruction has no meaning. -/
inductive Refusal where
  /-- No meaning is written for the instruction. Safe. No arm of `exec` answers it: every command has its meaning (R174). -/
  | notModelled (mnemonic : String)
  deriving DecidableEq, Repr

/-- The machine. -/
structure State where
  /-- IDX (R21). -/
  idx    : BitVec 6
  /-- MULT (R22). -/
  mult   : Entry
  /-- PROD (R23). -/
  prod   : Word
  /-- STATUS (R24); its fields are read and packed in Flags.lean. -/
  status : Byte
  /-- FINFO (R25). -/
  finfo  : Word
  /-- TABLE, as the bytes in which this ROM differs from the contents of R52; [] on this hardware (R104). Log 2. -/
  rom    : Memory
  /-- The sound chip (R33: environment state). -/
  chip   : Chip
  /-- What the environment does next, in order (R30, R195). Log 1. -/
  inputs : List HostInput
  /-- The position in the command list: how many commands have been accepted (R30). Log 1. -/
  pos    : Nat
  deriving DecidableEq, Repr

/-- All voices at one value. -/
def PerVoice.const (b : Byte) : PerVoice := ⟨b, b, b, b⟩

/-- The chip at the values this model names for its undefined power-on state (R137). DESIGN CHOICE: log 6. -/
def ChipRegs.powerOn : ChipRegs where
  interruptEnableMask   := 0x00
  systemControl         := 0x00
  voiceControl          := .const 0x00
  frequencyDivisor      := .const 0x00
  audioControlConfig    := 0x00
  auxPlaybackState      := 0x00
  countersDeterministic := false

/-- The state after reset: every block register 0 (R34, R190), the ROM conforming (R52), the host yet to act (R191). -/
def State.reset : State where
  idx    := 0
  mult   := 0
  prod   := 0
  status := 0
  finfo  := 0
  rom    := []
  chip   := ⟨ChipRegs.powerOn, []⟩
  inputs := []
  pos    := 0

end Sys2Proof.Machine
end

