-- ==== Sys2Proof/Machine/Flags.lean ====
section
/-! DEFINITION. The fields of STATUS (10_state.md R24) and the flag computations of the commands. -/

namespace Sys2Proof.Machine

/-- MV, bit 0: a lookup has completed (R24). -/
def State.mv (s : State) : Bool := s.status.getLsbD 0

/-- CL, bit 1: the last lookup was clamped (R24). -/
def State.cl (s : State) : Bool := s.status.getLsbD 1

/-- PV, bit 2: PROD holds a product of the current MULT (R24). -/
def State.pv (s : State) : Bool := s.status.getLsbD 2

/-- TR, bit 3: truncation to DIV8 lost bits (R24). -/
def State.tr (s : State) : Bool := s.status.getLsbD 3

/-- VF, bit 4: a VERIFY has succeeded (R24). -/
def State.vf (s : State) : Bool := s.status.getLsbD 4

/-- CAUSE, bits 7:5 (R24). -/
def State.cause (s : State) : BitVec 3 := s.status.extractLsb' 5 3

/-- The FAULT condition, `STATUS.CAUSE ≠ 0`: the block is halted (R24, R164). -/
def State.halted (s : State) : Bool := s.cause != 0

/-- STATUS from its fields, CAUSE highest and MV lowest (R24). -/
def packStatus (mv cl pv tr vf : Bool) (cause : BitVec 3) : Byte :=
  cause ++ BitVec.ofBool vf ++ BitVec.ofBool tr ++ BitVec.ofBool pv ++ BitVec.ofBool cl ++ BitVec.ofBool mv

/-- The code of each cause (R160). -/
def FaultCause.code : FaultCause → BitVec 3
  | .illegalCommand     => 1
  | .indexOutOfRange    => 2
  | .multiplierNotValid => 3
  | .tableMismatch      => 4

/-- STATUS after a completed lookup: MV 1, CL as given, PV and TR 0, the rest kept (R90). -/
def statusAfterLookup (cl : Bool) (s : State) : Byte := packStatus true cl false false s.vf s.cause

/-- STATUS after a completed scale: PV 1, TR as given, the rest kept (R111). -/
def statusAfterScale (tr : Bool) (s : State) : Byte := packStatus s.mv s.cl true tr s.vf s.cause

/-- STATUS after a successful VERIFY: VF 1, the rest kept (R102). -/
def statusAfterVerify (s : State) : Byte := packStatus s.mv s.cl s.pv s.tr true s.cause

/-- STATUS after a fault: CAUSE as given, the flags kept (R163). -/
def statusAfterFault (c : FaultCause) (s : State) : Byte := packStatus s.mv s.cl s.pv s.tr s.vf c.code

/-- TR of a product computed in Z: `P[23:16] ≠ 0` (R111). -/
def truncationLost (p : Nat) : Bool := p / 2 ^ 16 % 2 ^ 8 != 0

end Sys2Proof.Machine
end

