-- ==== Sys2Proof/Machine/Operands.lean ====
section
/-! DEFINITION. Operand forms (30_encoding.md R73; 43_system.md R122: absolute and relative index), the scaler's product
(42_scale.md R110 to R113) and the named views of the registers (10_state.md R22, R23). -/

namespace Sys2Proof.Machine

/-- Absolute index: the operand is compared on all 8 bits, never masked, wrapped or clamped (R91, R101). -/
def checkIndex (n : Byte) : Option NoteIndex :=
  if h : n.toNat < Config.tableSize then some ⟨n.toNat, h⟩ else none

/-- The raw relative index `r = e − b + 24`, in Z (R92). -/
def rawIndex (e b : Byte) : Int := (e.toNat : Int) - (b.toNat : Int) + (Config.unityIndex : Int)

/-- `clamp(r, 0, 61)` as a note index (R11, R92). -/
def clampIndex (r : Int) : NoteIndex :=
  if h : r.toNat < Config.tableSize then ⟨r.toNat, h⟩ else ⟨Config.noteMax, by decide⟩

/-- CL: the clamp changed the index (R92). -/
def wasClamped (r : Int) : Bool := (((clampIndex r).val : Int) != r)

/-- The exact product of a divisor and a multiplier, in Z (R111). -/
def product (d : Byte) (m : Entry) : Nat := d.toNat * m.toNat

/-- MULT_HI = MULT[15:8], the integer part (R22). -/
def State.multHi (s : State) : Byte := s.mult.extractLsb' 8 8

/-- MULT_LO = MULT[7:0], the fraction in units of 1/256 (R22). -/
def State.multLo (s : State) : Byte := s.mult.extractLsb' 0 8

/-- PROD_INT = PROD[23:8] (R23). -/
def State.prodInt (s : State) : BitVec 16 := s.prod.extractLsb' 8 16

/-- DIV8 = PROD[15:8] (R23). -/
def State.div8 (s : State) : Byte := s.prod.extractLsb' 8 8

/-- PROD_FRAC = PROD[7:0] (R23). -/
def State.prodFrac (s : State) : Byte := s.prod.extractLsb' 0 8

/-- The rate an 8.8 value stands for, `m / 256` (R12, R22). -/
def rate (m : Entry) : Rat := mkRat m.toNat 256

/-- The output ports (R28), at the level of steps: no command is ever in progress between two of them. -/
structure Ports where
  cmdReady : Bool
  idx      : BitVec 6
  mult     : Entry
  prod     : Word
  status   : Byte
  finfo    : Word
  fault    : Bool
  deriving DecidableEq, Repr

/-- What the host reads between steps; a read has no side effect (R27, R28). -/
def State.ports (s : State) : Ports where
  cmdReady := !s.halted
  idx      := s.idx
  mult     := s.mult
  prod     := s.prod
  status   := s.status
  finfo    := s.finfo
  fault    := s.halted

/-- The multiplier the host may use: MULT, when MV says it holds one (R35). -/
def State.multResult (s : State) : Option Entry := if s.mv then some s.mult else none

/-- The product the host may use: PROD, when PV says it holds one (R35). -/
def State.prodResult (s : State) : Option Word := if s.pv then some s.prod else none

end Sys2Proof.Machine
end

