-- ==== Sys2Proof/Machine/Rom.lean ====
section
/-! DEFINITION. The ROM as it is built: the 62 entries of 20_memory.md R52, and their byte view (R57). -/

namespace Sys2Proof.Machine

/-- Entries 0 to 30 of R52. -/
def builtTableLow : List Entry :=
  [0x0040, 0x0044, 0x0048, 0x004C, 0x0051, 0x0055, 0x005B, 0x0060, 0x0066, 0x006C, 0x0072, 0x0079] ++
  [0x0080, 0x0088, 0x0090, 0x0098, 0x00A1, 0x00AB, 0x00B5, 0x00C0, 0x00CB, 0x00D7, 0x00E4, 0x00F2] ++
  [0x0100, 0x010F, 0x011F, 0x0130, 0x0143, 0x0156, 0x016A]

/-- Entries 31 to 61 of R52. -/
def builtTableHigh : List Entry :=
  [0x0180, 0x0196, 0x01AF, 0x01C8, 0x01E3] ++
  [0x0200, 0x021E, 0x023F, 0x0261, 0x0285, 0x02AB, 0x02D4, 0x02FF, 0x032D, 0x035D, 0x0390, 0x03C7] ++
  [0x0400, 0x043D, 0x047D, 0x04C2, 0x050A, 0x0557, 0x05A8, 0x05FE, 0x0659, 0x06BA, 0x0721, 0x078D] ++
  [0x0800, 0x087A]

/-- `StoredTable` (R52), entry 0 first. -/
def builtTable : List Entry := builtTableLow ++ builtTableHigh

/-- How many bytes the table space has in its byte view: two per entry (R57). -/
abbrev romBytes : Nat := 2 * Config.tableSize

/-- What an unlisted byte address reads as: the byte of `StoredTable` there, the fraction byte of entry `n` at `2n` and its
integer byte at `2n + 1` (R57). Addresses from `romBytes` on do not exist and are never read (R60). -/
def builtByte (a : Nat) : Byte :=
  let entry := builtTable.getD (a / 2) 0
  if a % 2 = 0 then entry.extractLsb' 0 8 else entry.extractLsb' 8 8

end Sys2Proof.Machine
end

