-- ==== Sys2Proof/Machine/Ops.lean ====
section
/-! DEFINITION. The named operations: the table's memory (20_memory.md R50 to R60), the shared write-back of a lookup
(40_lookup.md R90), the write of a product (42_scale.md R111), raising a fault (60_exceptions.md R163), reset, the one exit
from a fault (60_exceptions.md R165; 70_reset_and_hazards.md R190), and taking the host's next action (10_state.md R30). -/

namespace Sys2Proof.Machine

/-- The canonical form: addresses strictly rise and exist, and no pair holds what an unlisted address reads as. -/
def Memory.wf : Memory → Bool
  | [] => true
  | (a, v) :: rest => decide (a < romBytes) && v != builtByte a && rest.all (fun c => decide (a < c.1)) && Memory.wf rest

/-- The byte at an existing address of the table space (R57). -/
def Memory.readByte (m : Memory) (a : Fin romBytes) : Byte :=
  match m.find? fun c => c.1 == a.val with
  | some c => c.2
  | none   => builtByte a.val

/-- The memory with one byte set, in canonical form. No command and no port does this, `MemWrite` has no meaning on this
hardware (R51): it describes another ROM, the configuration value `TABLE` of R104. -/
def Memory.setByte (m : Memory) (a : Fin romBytes) (v : Byte) : Memory :=
  match m with
  | [] => if v = builtByte a.val then [] else [(a.val, v)]
  | c :: rest =>
    if a.val < c.1 then (if v = builtByte a.val then c :: rest else (a.val, v) :: c :: rest)
    else if a.val = c.1 then (if v = builtByte a.val then rest else (a.val, v) :: rest)
    else c :: Memory.setByte rest a v

/-- The byte address of the fraction byte of an entry, `2n` (R57). -/
def fractionAddr (n : NoteIndex) : Fin romBytes := ⟨2 * n.val, by have := n.isLt; simp only [romBytes] at *; omega⟩

/-- The byte address of the integer byte of an entry, `2n + 1` (R57). -/
def integerAddr (n : NoteIndex) : Fin romBytes := ⟨2 * n.val + 1, by have := n.isLt; simp only [romBytes] at *; omega⟩

/-- The memory with one entry set (R57, R104), see `Memory.setByte`. -/
def Memory.setEntry (m : Memory) (n : NoteIndex) (v : Entry) : Memory :=
  (m.setByte (fractionAddr n) (v.extractLsb' 0 8)).setByte (integerAddr n) (v.extractLsb' 8 8)

/-- `TblRead(n)`: one whole 16-bit entry, integer byte high (R11, R57, R59). An index outside the table cannot be given
(R60). -/
def tblRead (rom : Memory) (n : NoteIndex) : Entry :=
  rom.readByte (integerAddr n) ++ rom.readByte (fractionAddr n)

/-- The lowest index whose stored entry differs from the formula, if any (R102). -/
def firstMismatch (rom : Memory) : Option NoteIndex :=
  (List.finRange Config.tableSize).find? fun n => tblRead rom n != generatedEntry n.val

/-- `WriteMult(i, m, cl)`, the common effect of a completed lookup (R90). -/
def writeMult (i : NoteIndex) (m : Entry) (cl : Bool) (s : State) : State :=
  { s with idx := BitVec.ofNat 6 i.val, mult := m, prod := 0, status := statusAfterLookup cl s }

/-- The write of an exact product, narrowed to the 24 bits of PROD (R111). -/
def writeProd (p : Nat) (s : State) : State :=
  { s with prod := BitVec.ofNat 24 p, status := statusAfterScale (truncationLost p) s }

/-- `STATUS.VF <- 1` (R102). -/
def setVerified (s : State) : State := { s with status := statusAfterVerify s }

/-- `raise F(info)`: CAUSE and FINFO are recorded, nothing else changes, and the block is then halted (R163). -/
def raise (c : FaultCause) (info : Word) (s : State) : State :=
  { s with status := statusAfterFault c s, finfo := info }

/-- Reset: the five registers take their reset values, the table is untouched (R34, R190). -/
def resetBlock (s : State) : State := { s with idx := 0, mult := 0, prod := 0, status := 0, finfo := 0 }

/-- The fault a step on a halted block answers (R164). -/
def haltedFault (s : State) : Fault := .halted s.cause s.finfo

/-- The host's action has been taken; what is left of its list is `rest`. -/
def takeInput (rest : List HostInput) (s : State) : State := { s with inputs := rest }

/-- A command has been accepted: the position advances by one (R30). -/
def acceptCommand (rest : List HostInput) (s : State) : State := { s with inputs := rest, pos := s.pos + 1 }

/-- The host presents `w` next, before all it had planned. -/
def presentFirst (w : Word) (s : State) : State := { s with inputs := .command w :: s.inputs }

end Sys2Proof.Machine
end

