-- ==== Sys2Proof/Machine/Chip.lean ====
section
/-! DEFINITION. The environment: writes to the sound chip's registers and the host procedure Initialize
(48_env_chip_initializer.md R130 to R154). No command of the block calls anything of this file (10_state.md R33). -/

namespace Sys2Proof.Machine

/-- The register of a voice. -/
def PerVoice.get (p : PerVoice) : Voice → Byte
  | .v1 => p.v1
  | .v2 => p.v2
  | .v3 => p.v3
  | .v4 => p.v4

/-- The register of a voice written. -/
def PerVoice.set (p : PerVoice) (v : Voice) (b : Byte) : PerVoice :=
  match v with
  | .v1 => { p with v1 := b }
  | .v2 => { p with v2 := b }
  | .v3 => { p with v3 := b }
  | .v4 => { p with v4 := b }

/-- The last value written to a register; for the write-only InterruptEnableMask it is the shadow (R131). -/
def ChipRegs.get (c : ChipRegs) : ChipReg → Byte
  | .interruptEnableMask => c.interruptEnableMask
  | .systemControl       => c.systemControl
  | .voiceControl v      => c.voiceControl.get v
  | .frequencyDivisor v  => c.frequencyDivisor.get v
  | .audioControlConfig  => c.audioControlConfig
  | .auxPlaybackState    => c.auxPlaybackState

/-- A register written. Writing 0 to SystemControl enters initialization mode, which also puts the internal dividers and
counters into a deterministic state (R132, R142). -/
def ChipRegs.set (c : ChipRegs) (r : ChipReg) (b : Byte) : ChipRegs :=
  match r with
  | .interruptEnableMask => { c with interruptEnableMask := b }
  | .systemControl       =>
    { c with systemControl := b, countersDeterministic := c.countersDeterministic || b == Config.skctlInit }
  | .voiceControl v      => { c with voiceControl := c.voiceControl.set v b }
  | .frequencyDivisor v  => { c with frequencyDivisor := c.frequencyDivisor.set v b }
  | .audioControlConfig  => { c with audioControlConfig := b }
  | .auxPlaybackState    => { c with auxPlaybackState := b }

/-- The chip is in initialization mode (R132): SystemControl holds 0. Every other value counts as out of it, because the spec
does not say which bits are the enables of normal mode. DESIGN CHOICE: log 17. -/
def ChipRegs.initMode (c : ChipRegs) : Bool := c.systemControl == Config.skctlInit

/-- One write, recorded in the log (R138). -/
def Chip.write (c : Chip) (w : ChipWrite) : Chip := ⟨c.regs.set w.reg w.value, c.log ++ [w]⟩

/-- A list of writes, first one first. -/
def Chip.writeAll (c : Chip) (ws : List ChipWrite) : Chip := ws.foldl Chip.write c

/-- The host's chip write as an action on the machine: only the chip changes. -/
def hostChipWrite (r : ChipReg) (v : Byte) (s : State) : State := { s with chip := s.chip.write ⟨r, v⟩ }

/-- Steps 1 to 7 of Initialize (R141 to R147) as writes, in their order. Step 6 always writes (R146). -/
def initializeBody (p : InitParams) : List ChipWrite :=
  [⟨.interruptEnableMask, 0x00⟩, ⟨.systemControl, Config.skctlInit⟩] ++
  p.voiceOrder.map (fun v => ⟨.voiceControl v, p.voiceSilent⟩) ++
  p.divisorOrder.map (fun v => ⟨.frequencyDivisor v, p.audf1Val⟩) ++
  [⟨.auxPlaybackState, p.auxInit⟩, ⟨.audioControlConfig, p.audctlVal⟩, ⟨.systemControl, p.skctlNormal⟩]

/-- Step 8 (R148), strictly last. -/
def initializeLast (p : InitParams) : ChipWrite := ⟨.interruptEnableMask, p.irqMask⟩

/-- The write log of one Initialize (R154). -/
def initializeLog (p : InitParams) : List ChipWrite := initializeBody p ++ [initializeLast p]

/-- A write as an action of the host. -/
def ChipWrite.toInput (w : ChipWrite) : HostInput := .chipWrite w.reg w.value

/-- Initialize as the host's actions: the writes of R154, with the settling delay, if any, before the last (R152). -/
def initializeInputs (p : InitParams) : List HostInput :=
  (initializeBody p).map ChipWrite.toInput ++ List.replicate p.settleDelay .idle ++ [(initializeLast p).toInput]

end Sys2Proof.Machine
end

