-- ==== Sys2Proof/Syntax.lean ====
section
/-! DEFINITION. The command set PNL-1: one constructor per row of spec/opcode_table.json (30_encoding.md R74). An operand is
the 8 bits of its field (R73), so every value of an operand's type is one the encoding admits. -/

namespace Sys2Proof

/-- A command of the block. -/
inductive Instr where
  /-- `NOP` (R120). -/
  | nop
  /-- `LOOKUP n`, `n` the note index (R91). -/
  | lookup (n : Byte)
  /-- `LOOKUPREL e, b`, `e` the export_note and `b` the base_note (R92). -/
  | lookuprel (e b : Byte)
  /-- `GEN n`, `n` the note index (R101). -/
  | gen (n : Byte)
  /-- `VERIFY` (R102). -/
  | verify
  /-- `SCALE d`, `d` the base frequency divisor (R111). -/
  | scale (d : Byte)
  deriving DecidableEq, Repr

end Sys2Proof
end

