-- ==== Sys2Proof/WellFormed.lean ====
section
/-! DEFINITION. What counts as well formed. An `Instr` needs no check: its operands are bytes and every byte is legal in its
field (30_encoding.md R73, R75; the range check n ≤ 61 belongs to execution). The checks are on a raw command word, by the
match and mask of R74, and on the parameters of Initialize, by the constraints of 48_env_chip_initializer.md R153. -/

namespace Sys2Proof

/-- One row of the opcode map of R74: a word `w` is the row's command when `w &&& mask = pattern`. -/
structure OpcodeRow where
  pattern : Word
  mask    : Word
  deriving DecidableEq, Repr

/-- The row of R74 for each command. -/
def Instr.row : Instr → OpcodeRow
  | .nop           => ⟨0x000000, 0xFFFFFF⟩
  | .lookup _      => ⟨0x010000, 0xFF00FF⟩
  | .lookuprel _ _ => ⟨0x020000, 0xFF0000⟩
  | .gen _         => ⟨0x030000, 0xFF00FF⟩
  | .verify        => ⟨0x040000, 0xFFFFFF⟩
  | .scale _       => ⟨0x050000, 0xFF00FF⟩

/-- The six rows of R74, in the table's order. -/
def opcodeRows : List OpcodeRow :=
  [Instr.nop.row, (Instr.lookup 0).row, (Instr.lookuprel 0 0).row, (Instr.gen 0).row, Instr.verify.row, (Instr.scale 0).row]

/-- `w` is a word of the row. -/
def OpcodeRow.accepts (r : OpcodeRow) (w : Word) : Bool := w &&& r.mask == r.pattern

/-- `w` is a word of one of the six rows: its opcode is assigned and its must-be-zero fields are zero (R71, R74, R76). -/
def wordWellFormed (w : Word) : Bool := opcodeRows.any fun r => r.accepts w

/-- A list names each of the four voices exactly once. -/
def voiceOrderWellFormed (l : List Voice) : Bool := l.isPerm Voice.all

/-- The constraints R153 puts on the open parameters: the silent voice value has volume 0 and is not 0x00, the normal-mode
value is not 0, and steps 3 and 4 write each voice once. Which bits of `VOICE_SILENT` select volume-only mode and which bits
of `SKCTL_NORMAL` enable keyboard scan and the serial clock the spec does not say, so neither is checked. DESIGN CHOICE: log 11
for `VOICE_SILENT`, log 17 for `SKCTL_NORMAL`. -/
def InitParams.wellFormed (p : InitParams) : Bool :=
  p.voiceSilent &&& 0x0F == 0 && p.voiceSilent != 0 && p.skctlNormal != 0 &&
    voiceOrderWellFormed p.voiceOrder && voiceOrderWellFormed p.divisorOrder

end Sys2Proof
end

