-- ==== Sys2Proof/Decode.lean ====
section
/-! DEFINITION. The decoder of 30_encoding.md R75, total on every word and on every list of bytes (R78), rejecting by name,
and the encoder of R74. -/

namespace Sys2Proof

/-- Why bytes are no command. Safe: the block raises IllegalCommand on the first two (R76), and the third is no word at all. -/
inductive DecodeError where
  /-- The opcode is in [0x06, 0xFF] (R76). -/
  | unassignedOpcode (op : Byte)
  /-- A must-be-zero operand field of an assigned opcode is not zero (R71, R76). -/
  | mustBeZeroField (op : Byte)
  /-- A byte list ends inside a word (R78: a word is three bytes). -/
  | truncated
  deriving DecidableEq, Repr

/-- `op = CMD[23:16]` (R70). -/
def opField (w : Word) : Byte := w.extractLsb' 16 8

/-- `a = CMD[15:8]` (R70). -/
def aField (w : Word) : Byte := w.extractLsb' 8 8

/-- `b = CMD[7:0]` (R70). -/
def bField (w : Word) : Byte := w.extractLsb' 0 8

/-- The word of three fields, `op || a || b` (R11, R70). -/
def joinFields (op a b : Byte) : Word := op ++ a ++ b

/-- The decoder of R75 on the three fields. -/
def decodeFields (op a b : Byte) : Except DecodeError Instr :=
  if op = 0x00 then
    if a = 0 ∧ b = 0 then .ok .nop else .error (.mustBeZeroField op)
  else if op = 0x01 then
    if b = 0 then .ok (.lookup a) else .error (.mustBeZeroField op)
  else if op = 0x02 then
    .ok (.lookuprel a b)
  else if op = 0x03 then
    if b = 0 then .ok (.gen a) else .error (.mustBeZeroField op)
  else if op = 0x04 then
    if a = 0 ∧ b = 0 then .ok .verify else .error (.mustBeZeroField op)
  else if op = 0x05 then
    if b = 0 then .ok (.scale a) else .error (.mustBeZeroField op)
  else .error (.unassignedOpcode op)

/-- The decoder of R75: a total function from 24-bit words to a command or an error. -/
def decode (w : Word) : Except DecodeError Instr := decodeFields (opField w) (aField w) (bField w)

/-- The word of a command, from the encoding table R74. -/
def encode : Instr → Word
  | .nop           => joinFields 0x00 0x00 0x00
  | .lookup n      => joinFields 0x01 n 0x00
  | .lookuprel e b => joinFields 0x02 e b
  | .gen n         => joinFields 0x03 n 0x00
  | .verify        => joinFields 0x04 0x00 0x00
  | .scale d       => joinFields 0x05 d 0x00

/-- A word as bytes: three bytes in the order op, a, b (R78). -/
def wordBytes (w : Word) : List Byte := [opField w, aField w, bField w]

/-- The bytes of a command (R74, R78). -/
def encodeBytes (i : Instr) : List Byte := wordBytes (encode i)

/-- The first command of a byte list, with the bytes after it (R78). -/
def decodeBytes : List Byte → Except DecodeError (Instr × List Byte)
  | op :: a :: b :: rest =>
    match decodeFields op a b with
    | .ok i    => .ok (i, rest)
    | .error e => .error e
  | _ => .error .truncated

/-- The command word the host means by the `nbits` low bits of `w`, bits above them zero: every command has the one length
of 24 bits (R70), numbered as R11 numbers them. -/
def tableWord (nbits w : Nat) : Word := BitVec.ofNat 24 (w % 2 ^ nbits)

/-- What the decoder reads from an instruction whose bits are `w`. No instruction is longer than 24 bits (R78). -/
def decodeTableWord (nbits w : Nat) : Option Instr :=
  if nbits ≤ 24 then
    match decode (tableWord nbits w) with
    | .ok i    => some i
    | .error _ => none
  else none

end Sys2Proof
end

