-- ==== Sys2Proof/Machine/Generate.lean ====
section
/-! DEFINITION. The generator commands (41_generate.md R100 to R104). -/

namespace Sys2Proof.Machine

/-- `GEN n` (R101); it does not read the table. -/
def execGen (n : Byte) (s : State) : Host.Outcome State Fault Refusal :=
  match checkIndex n with
  | some i => .next (writeMult i (generatedEntry i.val) false s)
  | none   => .next (raise .indexOutOfRange (encode (.gen n)) s)

/-- FINFO of a TableMismatch, `CMD | (n_bad << 8)` (R102, R160). -/
def mismatchInfo (n : NoteIndex) : Word := encode .verify ||| (BitVec.ofNat 24 n.val <<< 8)

/-- `VERIFY` (R102). -/
def execVerify (s : State) : Host.Outcome State Fault Refusal :=
  match firstMismatch s.rom with
  | some n => .next (raise .tableMismatch (mismatchInfo n) s)
  | none   => .next (setVerified s)

end Sys2Proof.Machine
end

