-- ==== Sys2Proof/Machine/Lookup.lean ====
section
/-! DEFINITION. The lookup commands (40_lookup.md R90 to R93). The command word `CMD` of a step that executes `i` is
`encode i`: decoding loses no bit (DEDUCED from 30_encoding.md R75, log 13). -/

namespace Sys2Proof.Machine

/-- `LOOKUP n` (R91). -/
def execLookup (n : Byte) (s : State) : Host.Outcome State Fault Refusal :=
  match checkIndex n with
  | some i => .next (writeMult i (tblRead s.rom i) false s)
  | none   => .next (raise .indexOutOfRange (encode (.lookup n)) s)

/-- `LOOKUPREL e, b` (R92); it never faults. -/
def execLookuprel (e b : Byte) (s : State) : Host.Outcome State Fault Refusal :=
  let r := rawIndex e b
  let i := clampIndex r
  .next (writeMult i (tblRead s.rom i) (wasClamped r) s)

end Sys2Proof.Machine
end

