-- ==== Sys2Proof/Machine/Scale.lean ====
section
/-! DEFINITION. The scaler (42_scale.md R110 to R115). -/

namespace Sys2Proof.Machine

/-- `SCALE d` (R111). -/
def execScale (d : Byte) (s : State) : Host.Outcome State Fault Refusal :=
  if s.mv then .next (writeProd (product d s.mult) s)
  else .next (raise .multiplierNotValid (encode (.scale d)) s)

end Sys2Proof.Machine
end

