-- ==== Sys2Proof/Machine/System.lean ====
section
/-! DEFINITION. The one system command (43_system.md R120); the classes R121 to R123 name do not exist. -/

namespace Sys2Proof.Machine

/-- `NOP`: no register changes (R120). -/
def execNop (s : State) : Host.Outcome State Fault Refusal := .next s

end Sys2Proof.Machine
end

