-- ==== Sys2Proof/Machine/Dispatch.lean ====
section
/-! DEFINITION. The effect of an ACCEPTED command (30_encoding.md R72), one arm per row of the opcode table. Acceptance, that
is the check that the block is not halted, stands in Accept.lean. -/

namespace Sys2Proof.Machine

def exec (i : Instr) (s : State) : Host.Outcome State Fault Refusal :=
  match i with
  | .nop => Sys2Proof.Machine.execNop s
  | .lookup n => Sys2Proof.Machine.execLookup n s
  | .lookuprel e b => Sys2Proof.Machine.execLookuprel e b s
  | .gen n => Sys2Proof.Machine.execGen n s
  | .verify => Sys2Proof.Machine.execVerify s
  | .scale d => Sys2Proof.Machine.execScale d s

end Sys2Proof.Machine
end

