-- ==== Sys2Proof/Machine/Accept.lean ====
section
/-! DEFINITION. One action of the environment: a presented command word is accepted, decoded and executed in one step
(30_encoding.md R72, 60_exceptions.md R162, R164), reset, a chip write, or nothing. -/

namespace Sys2Proof.Machine

/-- Decode and execute an accepted word: decoding comes first and a word that does not decode raises IllegalCommand
(R72, R76, R162). -/
def execWord (w : Word) (s : State) : Host.Outcome State Fault Refusal :=
  match decode w with
  | .ok i    => exec i s
  | .error _ => .next (raise .illegalCommand w s)

/-- The host presents `w`: accepted, and the position advanced, only when the block is not halted (R30, R72, R164). -/
def present (w : Word) (rest : List HostInput) (s : State) : Host.Outcome State Fault Refusal :=
  if s.halted then .fault (haltedFault s) else execWord w (acceptCommand rest s)

/-- The host presents nothing more: the block keeps its state (R195); a halted run is a fault and not a normal end (R164).
DESIGN CHOICE: log 4, log 5. -/
def noMoreInput (s : State) : Host.Outcome State Fault Refusal :=
  if s.halted then .fault (haltedFault s) else .next s

/-- One action of the environment. -/
def takeAction (i : HostInput) (rest : List HostInput) (s : State) : Host.Outcome State Fault Refusal :=
  match i with
  | .command w     => present w rest s
  | .reset _       => .next (resetBlock (takeInput rest s))
  | .chipWrite r v => .next (hostChipWrite r v (takeInput rest s))
  | .idle          => .next (takeInput rest s)

end Sys2Proof.Machine
end

