-- ==== Sys2Proof/Machine/Step.lean ====
section
/-! DEFINITION. The step (00_scope.md R9) and the placing of a word where the step takes its next command. The block fetches
nothing (10_state.md R30): its next command is the next word the host presents. -/

namespace Sys2Proof.Machine

/-- One step: the environment's next action, if there is one. -/
def step (s : State) : Host.Outcome State Fault Refusal :=
  match s.inputs with
  | []        => noMoreInput s
  | i :: rest => takeAction i rest s

/-- `s` with the command word `w` as the host's next action. -/
def State.withFetchWord (s : State) (nbits w : Nat) : State := presentFirst (tableWord nbits w) s

end Sys2Proof.Machine
end

