-- ==== Sys2Proof/Machine/Assembler.lean ====
section
/-! DEFINITION. The assembler text of 30_encoding.md R79 and R80, over lists of characters: one command per line, a mnemonic
in capitals, operands separated by a comma, unsigned numerals in [0, 255], decimal or 0x hexadecimal, a comment after ';'. No
pseudo-instructions. Which characters are white space, where it may stand, blank lines and the case of hexadecimal digits are
not said: DESIGN CHOICE, log 12. -/

namespace Sys2Proof.Machine

/-- Why a line is no command. Safe: the line is refused. -/
inductive AsmError where
  /-- The first word is none of the six mnemonics. -/
  | unknownMnemonic
  /-- The mnemonic takes another number of operands. -/
  | wrongOperandCount
  /-- An operand is no unsigned numeral. -/
  | notANumeral
  /-- An operand is a numeral above 255; it is refused, not reduced (R79). -/
  | operandOutOfRange
  deriving DecidableEq, Repr

/-- White space inside a line: a space, a tab or a carriage return. -/
def isBlankChar (c : Char) : Bool := c == ' ' || c == '\t' || c == '\r'

/-- White space taken off the front. -/
def trimFront (cs : List Char) : List Char := cs.dropWhile isBlankChar

/-- White space taken off both ends. -/
def trimBlank (cs : List Char) : List Char := (trimFront (trimFront cs).reverse).reverse

/-- The line up to its comment. -/
def stripComment (cs : List Char) : List Char := cs.takeWhile fun c => c != ';'

/-- The parts of a list between occurrences of a separator. -/
def splitOnChar (sep : Char) : List Char → List (List Char)
  | [] => [[]]
  | c :: cs =>
    if c == sep then [] :: splitOnChar sep cs
    else match splitOnChar sep cs with
      | []        => [[c]]
      | p :: rest => (c :: p) :: rest

/-- The value of a digit, in any base up to sixteen. -/
def digitValue (c : Char) : Option Nat :=
  if '0' ≤ c ∧ c ≤ '9' then some (c.toNat - '0'.toNat)
  else if 'a' ≤ c ∧ c ≤ 'f' then some (c.toNat - 'a'.toNat + 10)
  else if 'A' ≤ c ∧ c ≤ 'F' then some (c.toNat - 'A'.toNat + 10)
  else none

/-- The digits of a numeral, most significant first, after the value `acc` read so far. -/
def readDigits (base : Nat) : List Char → Nat → Option Nat
  | [], acc => some acc
  | c :: cs, acc =>
    match digitValue c with
    | some v => if v < base then readDigits base cs (acc * base + v) else none
    | none   => none

/-- One or more digits. -/
def readSomeDigits (base : Nat) (cs : List Char) : Option Nat := if cs = [] then none else readDigits base cs 0

/-- An unsigned numeral, decimal or, after `0x`, hexadecimal (R79). -/
def readNumeral (cs : List Char) : Option Nat :=
  if cs.take 2 = ['0', 'x'] then readSomeDigits 16 (cs.drop 2) else readSomeDigits 10 cs

/-- An operand: a numeral in [0, 255] (R79). -/
def readOperand (cs : List Char) : Except AsmError Byte :=
  match readNumeral (trimBlank cs) with
  | none   => .error .notANumeral
  | some v => if v < 256 then .ok (BitVec.ofNat 8 v) else .error .operandOutOfRange

/-- The mnemonic of a command (R74, R79). -/
def mnemonicChars : Instr → List Char
  | .nop           => ['N', 'O', 'P']
  | .lookup _      => ['L', 'O', 'O', 'K', 'U', 'P']
  | .lookuprel _ _ => ['L', 'O', 'O', 'K', 'U', 'P', 'R', 'E', 'L']
  | .gen _         => ['G', 'E', 'N']
  | .verify        => ['V', 'E', 'R', 'I', 'F', 'Y']
  | .scale _       => ['S', 'C', 'A', 'L', 'E']

/-- A command without operands. -/
def asmNone (i : Instr) : List (List Char) → Except AsmError Instr
  | [] => .ok i
  | _  => .error .wrongOperandCount

/-- A command with one operand. -/
def asmOne (f : Byte → Instr) : List (List Char) → Except AsmError Instr
  | [x] => match readOperand x with
    | .ok a    => .ok (f a)
    | .error e => .error e
  | _   => .error .wrongOperandCount

/-- A command with two operands, in the order written. -/
def asmTwo (f : Byte → Byte → Instr) : List (List Char) → Except AsmError Instr
  | [x, y] => match readOperand x, readOperand y with
    | .ok a, .ok b    => .ok (f a b)
    | .error e, _     => .error e
    | .ok _, .error e => .error e
  | _      => .error .wrongOperandCount

/-- A mnemonic with its operands (R74, R79). -/
def asmCommand (m : List Char) (ops : List (List Char)) : Except AsmError Instr :=
  if m = mnemonicChars .nop then asmNone .nop ops
  else if m = mnemonicChars (.lookup 0) then asmOne .lookup ops
  else if m = mnemonicChars (.lookuprel 0 0) then asmTwo .lookuprel ops
  else if m = mnemonicChars (.gen 0) then asmOne .gen ops
  else if m = mnemonicChars .verify then asmNone .verify ops
  else if m = mnemonicChars (.scale 0) then asmOne .scale ops
  else .error .unknownMnemonic

/-- The operands of what follows the mnemonic: none, or the parts between commas. -/
def asmOperands (cs : List Char) : List (List Char) :=
  if trimFront cs = [] then [] else splitOnChar ',' (trimFront cs)

/-- One line, its comment and the white space at its ends taken off: no command when nothing is left, else one command
(R79). -/
def assembleTrimmed (cs : List Char) : Except AsmError (Option Instr) :=
  if cs = [] then .ok none
  else match asmCommand (cs.takeWhile fun c => !isBlankChar c) (asmOperands (cs.dropWhile fun c => !isBlankChar c)) with
    | .ok i    => .ok (some i)
    | .error e => .error e

/-- One line of assembly (R79). -/
def assembleLine (line : List Char) : Except AsmError (Option Instr) := assembleTrimmed (trimBlank (stripComment line))

/-- The lines of a program, in order; the first bad line refuses it. -/
def assembleLines : List (List Char) → Except AsmError (List Instr)
  | [] => .ok []
  | l :: ls =>
    match assembleLine l, assembleLines ls with
    | .error e, _             => .error e
    | .ok _, .error e         => .error e
    | .ok none, .ok is        => .ok is
    | .ok (some i), .ok is    => .ok (i :: is)

/-- A program text: every line of assembly is one command word (R79, R80). -/
def assemble (text : List Char) : Except AsmError (List Word) :=
  match assembleLines (splitOnChar '\n' text) with
  | .ok is   => .ok (is.map encode)
  | .error e => .error e

/-- A decimal digit. -/
def digitChar (n : Nat) : Char := Char.ofNat ('0'.toNat + n % 10)

/-- A byte as a decimal numeral without leading zeros. -/
def showByte (b : Byte) : List Char :=
  let n := b.toNat
  if n < 10 then [digitChar n]
  else if n < 100 then [digitChar (n / 10), digitChar n]
  else [digitChar (n / 100), digitChar (n / 10), digitChar n]

/-- The operands of a command as R79 writes them. -/
def showOperands : Instr → List Char
  | .nop           => []
  | .lookup n      => ' ' :: showByte n
  | .lookuprel e b => ' ' :: (showByte e ++ (',' :: ' ' :: showByte b))
  | .gen n         => ' ' :: showByte n
  | .verify        => []
  | .scale d       => ' ' :: showByte d

/-- A command as a line of assembly (R79). -/
def showInstr (i : Instr) : List Char := mnemonicChars i ++ showOperands i

end Sys2Proof.Machine
end

