-- ==== Sys2Proof/Safety.lean ====
section
/-! DEFINITION. What counts as a safe state and a safe run, in the terms claims use: the invariants of 10_state.md R36, a
completed run (70_reset_and_hazards.md R195), what the host may rely on (R198), and the order and ownership rules of the
environment (48_env_chip_initializer.md R137, R140, R150, R151). -/

namespace Sys2Proof

open Machine

/-- The ROM equals the formula at all 62 indices: the conforming table of R52, R104. -/
def RomConforms (rom : Memory) : Prop := ∀ n : NoteIndex, tblRead rom n = generatedEntry n.val

/-- The invariants of R36, one field per item (a) to (j). -/
structure Inv (s : State) : Prop where
  /-- (a) -/
  idx_le : s.idx.toNat ≤ Config.noteMax
  /-- (b) -/
  mult_of_mv : s.mv = true →
    ∃ n : NoteIndex, s.idx.toNat = n.val ∧ (s.mult = tblRead s.rom n ∨ s.mult = generatedEntry n.val)
  /-- (c) -/
  empty_of_not_mv : s.mv = false → s.idx = 0 ∧ s.mult = 0 ∧ s.cl = false ∧ s.pv = false
  /-- (d) -/
  prod_of_pv : s.pv = true → s.mv = true ∧ ∃ d : Byte, s.prod.toNat = d.toNat * s.mult.toNat
  /-- (e) -/
  empty_of_not_pv : s.pv = false → s.prod = 0 ∧ s.tr = false
  /-- (f) -/
  tr_iff : s.tr = true ↔ s.prod.extractLsb' 16 8 ≠ 0
  /-- (g) -/
  cl_at_end : s.cl = true → s.idx = 0 ∨ s.idx = 61
  /-- (h) -/
  cause_iff_finfo : s.cause = 0 ↔ s.finfo = 0
  /-- (i) -/
  cause_le : s.cause.toNat ≤ 4
  /-- (j) -/
  conforms_of_vf : s.vf = true → RomConforms s.rom

/-- A machine as reset leaves it, with some ROM (R104), some chip (R137) and a host stream to run (R195). -/
def startState (rom : Memory) (chip : Chip) (inputs : List HostInput) : State :=
  { State.reset with rom := rom, chip := chip, inputs := inputs }

/-- A run of `k` steps from `s` ends normally in `t`: every action has been taken and no fault is recorded (R195). R195's run
holds command words only; this one takes any list of the host's actions, and a reset in it does not start a new run, so a
list that faults, is reset and then drains counts as a normal end. DESIGN CHOICE: log 16. -/
def RunCompletes (k : Nat) (s t : State) : Prop :=
  Host.Core.run core k s = .next t ∧ t.inputs = [] ∧ t.halted = false

/-- The command streams that raise no fault on a conforming table, `mv` saying whether a lookup has completed: every absolute
index is in range, and a SCALE comes after at least one completed lookup (R193). -/
def LegalStream : Bool → List Instr → Prop
  | _, []                       => True
  | mv, .nop :: rest            => LegalStream mv rest
  | _, .lookup n :: rest        => n.toNat ≤ Config.noteMax ∧ LegalStream true rest
  | _, .lookuprel _ _ :: rest   => LegalStream true rest
  | _, .gen n :: rest           => n.toNat ≤ Config.noteMax ∧ LegalStream true rest
  | mv, .verify :: rest         => LegalStream mv rest
  | mv, .scale _ :: rest        => mv = true ∧ LegalStream mv rest

/-- The host's actions that present a list of commands, one word each (R30). -/
def commandInputs (is : List Instr) : List HostInput := is.map fun i => .command (encode i)

/-- The multiplier is that of the index asked for (R198: MV set and CL clear). -/
def multIsAsAsked (s : State) : Bool := s.mv && !s.cl

/-- DIV8 is the whole integer part of the product (R198: PV set and TR clear). -/
def div8IsExact (s : State) : Bool := s.pv && !s.tr

/-- The write is to a per-voice or mode register (R151). -/
def ChipReg.isAudio : ChipReg → Bool
  | .voiceControl _ | .frequencyDivisor _ | .audioControlConfig => true
  | .interruptEnableMask | .systemControl | .auxPlaybackState => false

/-- The step-order property of R151 of a recording of one Initialize. -/
def InitOrderKept (p : InitParams) (log : List ChipWrite) : Prop :=
  log.head? = some ⟨.interruptEnableMask, 0⟩ ∧
  log.getLast? = some ⟨.interruptEnableMask, p.irqMask⟩ ∧
  (∀ v, ⟨.voiceControl v, p.voiceSilent⟩ ∈ log) ∧
  (∀ v b, ⟨.voiceControl v, b⟩ ∈ log → b = p.voiceSilent ∧ b ≠ 0 ∧ b &&& 0x0F = 0) ∧
  ∃ before during after,
    log = before ++ [⟨.systemControl, Config.skctlInit⟩] ++ during ++ [⟨.systemControl, p.skctlNormal⟩] ++ after ∧
    (∀ w ∈ before ++ after, w.reg.isAudio = false) ∧ (∀ w ∈ during, w.reg ≠ .systemControl)

/-- The chip is silent and out of initialization mode (R137), its internal counters once put in their deterministic state
(R132). Out of initialization mode is log 17, the counters' bit is log 8. -/
def SilentAndReady (p : InitParams) (c : ChipRegs) : Prop :=
  (∀ v, c.voiceControl.get v = p.voiceSilent) ∧ c.initMode = false ∧ c.countersDeterministic = true

/-- The chip was initialized before any other write to it: what has been written so far is a beginning of one Initialize, or
begins with one (R140, R150, R199). -/
def StartupKept (p : InitParams) (log : List ChipWrite) : Prop :=
  log <+: initializeLog p ∨ initializeLog p <+: log

end Sys2Proof
end

