-- ==== Sys2Proof/Certificates/Slice0/Obligations.lean ====
section
/-! DEFINITION. The statements for the provers. STATUS is written as its byte: a mask keeps the bits the rule leaves alone and
an OR sets the bits it writes (10_state.md R24: MV 0x01, CL 0x02, PV 0x04, TR 0x08, VF 0x10, CAUSE in 0xE0). A record update
of the state before says the frame too: every field it does not name is unchanged, the ROM, the sound chip, the host's list
and the position among them. A command executes only while the block is not halted (30_encoding.md R72), so the statements
about `exec` suppose that. -/

open Sys2Proof Sys2Proof.Machine

/-! Encoding (30_encoding.md). -/

/-- R74, R75: decoding and encoding are inverse on commands and on the words that decode; no operand bit is dropped. -/
def Obligations.DecodeAndEncodeAgree : Prop :=
  (∀ i : Instr, decode (encode i) = .ok i) ∧ (∀ (w : Word) (i : Instr), decode w = .ok i → encode i = w)

/-- R75, case by case in terms of the three fields. -/
def Obligations.DecoderReadsTheThreeFields : Prop :=
  ∀ w : Word,
    (decode w = .ok .nop ↔ opField w = 0x00 ∧ aField w = 0 ∧ bField w = 0) ∧
    (∀ n, decode w = .ok (.lookup n) ↔ opField w = 0x01 ∧ bField w = 0 ∧ n = aField w) ∧
    (∀ e b, decode w = .ok (.lookuprel e b) ↔ opField w = 0x02 ∧ e = aField w ∧ b = bField w) ∧
    (∀ n, decode w = .ok (.gen n) ↔ opField w = 0x03 ∧ bField w = 0 ∧ n = aField w) ∧
    (decode w = .ok .verify ↔ opField w = 0x04 ∧ aField w = 0 ∧ bField w = 0) ∧
    (∀ d, decode w = .ok (.scale d) ↔ opField w = 0x05 ∧ bField w = 0 ∧ d = aField w)

/-- R74: the words that decode are the words of the six match and mask rows, each in its own command's row, and no two rows
match the same word. -/
def Obligations.LegalWordsAreTheOpcodeRows : Prop :=
  (∀ w : Word, wordWellFormed w = true ↔ ∃ i, decode w = .ok i) ∧
  (∀ (w : Word) (i : Instr), decode w = .ok i → w &&& i.row.mask = i.row.pattern) ∧
  (∀ w : Word, opcodeRows.Pairwise fun r r' => ¬(r.accepts w = true ∧ r'.accepts w = true))

/-- R76: which words are illegal, that an accepted one raises IllegalCommand (CAUSE 1, FINFO the word, nothing else), and how
many words are legal and illegal. -/
def Obligations.IllegalWordsRaiseIllegalCommand : Prop :=
  (∀ w : Word, (∃ e, decode w = .error e) ↔
    0x06 ≤ (opField w).toNat ∨
    ((opField w = 0x00 ∨ opField w = 0x04) ∧ (aField w ≠ 0 ∨ bField w ≠ 0)) ∨
    ((opField w = 0x01 ∨ opField w = 0x03 ∨ opField w = 0x05) ∧ bField w ≠ 0)) ∧
  (∀ (s : State) (w : Word) (rest : List HostInput), s.inputs = .command w :: rest → s.halted = false →
    (∃ e, decode w = .error e) →
    step s = .next { s with inputs := rest, pos := s.pos + 1, status := (s.status &&& 0x1F) ||| 0x20, finfo := w }) ∧
  Nat.card (Subtype fun w : Word => (decode w).isOk = true) = 66306 ∧
  Nat.card (Subtype fun w : Word => (decode w).isOk = false) = 16710910

/-- R78: a word as bytes is three bytes in the order op, a, b, and reading them back leaves the bytes after them. -/
def Obligations.CommandBytesReadBack : Prop :=
  (∀ (i : Instr) (rest : List Byte), decodeBytes (encodeBytes i ++ rest) = .ok (i, rest)) ∧
  (∀ i : Instr, encodeBytes i = [opField (encode i), aField (encode i), bField (encode i)]) ∧
  (∀ bytes : List Byte, bytes.length < 3 → decodeBytes bytes = .error .truncated)

/-- 95_test_vectors.md 2.7: the decoder's own vectors, one word of each family and the illegal ones. -/
def Obligations.SampleWordsDecode : Prop :=
  decode 0x000000 = .ok .nop ∧ decode 0x010000 = .ok (.lookup 0) ∧ decode 0x01FF00 = .ok (.lookup 255) ∧
  decode 0x02FFFF = .ok (.lookuprel 255 255) ∧ decode 0x030000 = .ok (.gen 0) ∧ decode 0x040000 = .ok .verify ∧
  decode 0x05FF00 = .ok (.scale 255) ∧ (decode 0x0100FF).isOk = false ∧ (decode 0x040100).isOk = false ∧
  (decode 0x060000).isOk = false

/-- R79: the assembler reads back every command as it is printed. -/
def Obligations.AssemblerReadsBackPrintedCommands : Prop :=
  ∀ i : Instr, assembleLine (showInstr i) = .ok (some i)

/-! The step (00_scope.md R9, 30_encoding.md R72). -/

/-- R72: a word presented to a block that is not halted is accepted, the position advances, and the step is the execution of
the command it decodes to, or raises IllegalCommand; a word presented to a halted block is not accepted: there is no next
state. -/
def Obligations.StepRunsTheDecodedInstruction : Prop :=
  ∀ (s : State) (w : Word) (rest : List HostInput), s.inputs = .command w :: rest →
    (s.halted = false → ∀ i, decode w = .ok i → step s = exec i { s with inputs := rest, pos := s.pos + 1 }) ∧
    (s.halted = false → ∀ e, decode w = .error e →
      step s = .next { s with inputs := rest, pos := s.pos + 1, status := (s.status &&& 0x1F) ||| 0x20, finfo := w }) ∧
    (s.halted = true → ∀ t, step s ≠ .next t)

/-- R30: the position advances by one for each accepted command and never otherwise; a halted block's never does. -/
def Obligations.PositionCountsAcceptedCommands : Prop :=
  ∀ s t : State, step s = .next t →
    ((∃ w rest, s.inputs = .command w :: rest ∧ s.halted = false ∧ t.inputs = rest ∧ t.pos = s.pos + 1) ∨
     ((∀ w rest, s.inputs ≠ .command w :: rest) ∧ t.pos = s.pos)) ∧
    (s.halted = true → t.pos = s.pos)

/-- R174: nothing is refused and nothing hangs. The model's choices in this form of it: a step with an empty host list is a
next state of a block that is not halted (log 5), the fault outcome is answered by a step of the halted block and carries CAUSE
and FINFO (log 3, log 4). -/
def Obligations.EveryAcceptedCommandCompletes : Prop :=
  (∀ (s : State) (r : Refusal), step s ≠ .refused r) ∧
  (∀ s : State, s.halted = false → ∃ t, step s = .next t) ∧
  (∀ (s : State) (f : Fault), step s = .fault f → s.halted = true ∧ f = .halted s.cause s.finfo)

/-- R195: with no further word to execute, a block that is not halted keeps its state, and a run that ends on a halted block is
a fault (that these steps exist is the model's choice: log 4, log 5). -/
def Obligations.BlockKeepsItsStateWithoutCommands : Prop :=
  (∀ s : State, s.inputs = [] → s.halted = false → step s = .next s) ∧
  (∀ s : State, s.inputs = [] → s.halted = true → step s = .fault (.halted s.cause s.finfo)) ∧
  (∀ (s : State) (rest : List HostInput), s.inputs = .idle :: rest → step s = .next { s with inputs := rest })

/-! Registers, ports, views (10_state.md). -/

/-- R34: reset leaves every register at its reset value, whatever the state, and leaves the table alone. -/
def Obligations.ResetLeavesTheResetValues : Prop :=
  (State.reset.idx = 0 ∧ State.reset.mult = 0 ∧ State.reset.prod = 0 ∧ State.reset.status = 0 ∧ State.reset.finfo = 0 ∧
    RomConforms State.reset.rom) ∧
  (∀ (s : State) (p : Option Word) (rest : List HostInput), s.inputs = .reset p :: rest →
    step s = .next { s with idx := 0, mult := 0, prod := 0, status := 0, finfo := 0, inputs := rest })

/-- R190, R24, R25: only reset clears MV, VF, CAUSE and FINFO. -/
def Obligations.OnlyResetClearsStickyState : Prop :=
  ∀ s t : State, step s = .next t → (∀ p rest, s.inputs ≠ .reset p :: rest) →
    (s.mv = true → t.mv = true) ∧ (s.vf = true → t.vf = true) ∧ (s.cause ≠ 0 → t.cause = s.cause ∧ t.finfo = s.finfo)

/-- R24: the fields of STATUS are its bits 0 to 4 and its bits 7:5, and nothing else is in it. -/
def Obligations.StatusFieldsMakeTheByte : Prop :=
  ∀ s : State, s.status.toNat =
    s.mv.toNat + 2 * s.cl.toNat + 4 * s.pv.toNat + 8 * s.tr.toNat + 16 * s.vf.toNat + 32 * s.cause.toNat

/-- R28, R27: the ports show the registers, ready and fault are opposite, and fault is CAUSE ≠ 0. -/
def Obligations.PortsShowTheRegisters : Prop :=
  ∀ s : State, s.ports.idx = s.idx ∧ s.ports.mult = s.mult ∧ s.ports.prod = s.prod ∧ s.ports.status = s.status ∧
    s.ports.finfo = s.finfo ∧ (s.ports.fault = true ↔ s.cause ≠ 0) ∧ (s.ports.cmdReady = true ↔ s.cause = 0)

/-- R35: while MV = 0 the ports show 0, no multiplier is there to be used, and SCALE raises MultiplierNotValid; while PV = 0
the port of PROD shows 0. -/
def Obligations.UnwrittenRegistersHoldNoResult : Prop :=
  ∀ s : State, Inv s →
    (s.mv = false → s.ports.mult = 0 ∧ s.ports.idx = 0 ∧ s.multResult = none ∧
      (s.halted = false → ∀ d, ∃ t, exec (.scale d) s = .next t ∧ t.cause = FaultCause.multiplierNotValid.code ∧
        t.prod = s.prod)) ∧
    (s.pv = false → s.ports.prod = 0 ∧ s.prodResult = none)

/-- R23, R113: the views of PROD are its quotients and remainders; DIV8 is the integer part's low eight bits. -/
def Obligations.ProductViewsTruncate : Prop :=
  ∀ s : State, s.prodInt.toNat = s.prod.toNat / 256 ∧ s.div8.toNat = s.prod.toNat / 256 % 256 ∧
    s.prodFrac.toNat = s.prod.toNat % 256 ∧
    (Inv s → (s.tr = true ↔ s.div8.toNat ≠ s.prodInt.toNat))

/-! The commands (40_lookup.md to 43_system.md): what each does where it completes and where it faults. -/

/-- R120. -/
def Obligations.NopChangesNothing : Prop :=
  (∀ s : State, s.halted = false → exec .nop s = .next s) ∧
  (∀ w : Word, decode w = .ok .nop ↔ w = 0x000000) ∧
  (∀ (s : State) (w : Word) (rest : List HostInput), s.inputs = .command w :: rest → s.halted = false →
    opField w = 0x00 → w ≠ 0x000000 → ∃ t, step s = .next t ∧ t.cause = FaultCause.illegalCommand.code) ∧
  (∀ (s : State) (rest : List HostInput), s.inputs = .command 0x000000 :: rest → s.halted = true → ∀ t, step s ≠ .next t)

/-- R91. -/
def Obligations.LookupLoadsTheEntryOrFaults : Prop :=
  (∀ n : Byte, decode (joinFields 0x01 n 0x00) = .ok (.lookup n)) ∧
  (∀ (s : State) (n : Byte) (k : NoteIndex), s.halted = false → n.toNat = k.val →
    exec (.lookup n) s = .next { s with idx := BitVec.ofNat 6 k.val, mult := tblRead s.rom k, prod := 0, status := (s.status &&& 0xF0) ||| 0x01 }) ∧
  (∀ (s : State) (n : Byte), s.halted = false → 61 < n.toNat →
    exec (.lookup n) s = .next { s with status := (s.status &&& 0x1F) ||| 0x40, finfo := joinFields 0x01 n 0x00 }) ∧
  (∀ s t : State, ∀ n : Byte, s.halted = false → 61 < n.toNat → exec (.lookup n) s = .next t → t.halted = true) ∧
  tblRead State.reset.rom 0 = 0x0040 ∧ tblRead State.reset.rom 61 = 0x087A ∧ decode 0x011800 = .ok (.lookup 24) ∧
  exec (.lookup 24) State.reset = .next { State.reset with idx := 24, mult := 0x0100, status := 0x01 }

/-- R92: with r = e − b + 24 in Z. -/
def Obligations.LookuprelClampsTheRelativeIndex : Prop :=
  (∀ e b : Byte, decode (joinFields 0x02 e b) = .ok (.lookuprel e b)) ∧
  (∀ (s : State) (e b : Byte) (k : NoteIndex), s.halted = false → (e.toNat : Int) - b.toNat + 24 = k.val →
    exec (.lookuprel e b) s = .next { s with idx := BitVec.ofNat 6 k.val, mult := tblRead s.rom k, prod := 0, status := (s.status &&& 0xF0) ||| 0x01 }) ∧
  (∀ (s : State) (e b : Byte), s.halted = false → (e.toNat : Int) - b.toNat + 24 < 0 →
    exec (.lookuprel e b) s = .next { s with idx := 0, mult := tblRead s.rom 0, prod := 0, status := (s.status &&& 0xF0) ||| 0x03 }) ∧
  (∀ (s : State) (e b : Byte), s.halted = false → 61 < (e.toNat : Int) - b.toNat + 24 →
    exec (.lookuprel e b) s = .next { s with idx := 61, mult := tblRead s.rom 61, prod := 0, status := (s.status &&& 0xF0) ||| 0x03 }) ∧
  (∀ e b : Byte, -231 ≤ (e.toNat : Int) - b.toNat + 24 ∧ (e.toNat : Int) - b.toNat + 24 ≤ 279) ∧
  decode 0x023018 = .ok (.lookuprel 48 24) ∧
  exec (.lookuprel 48 24) State.reset = .next { State.reset with idx := 48, mult := 0x0400, status := 0x01 }

/-- R93: LOOKUPREL and the LOOKUP of the clamped index leave the same state but for CL. -/
def Obligations.LookuprelIsLookupOfTheClampedIndex : Prop :=
  ∀ (s : State) (e b n : Byte), s.halted = false →
    (n.toNat : Int) = max 0 (min 61 ((e.toNat : Int) - b.toNat + 24)) →
    ∃ t u, exec (.lookuprel e b) s = .next t ∧ exec (.lookup n) s = .next u ∧
      t = { u with status := t.status } ∧ t.status &&& 0xFD = u.status &&& 0xFD ∧ u.cl = false ∧
      (t.cl = true ↔ (n.toNat : Int) ≠ (e.toNat : Int) - b.toNat + 24)

/-- R101. -/
def Obligations.GenLoadsTheGeneratedEntryOrFaults : Prop :=
  (∀ n : Byte, decode (joinFields 0x03 n 0x00) = .ok (.gen n)) ∧
  (∀ (s : State) (n : Byte), s.halted = false → n.toNat ≤ 61 →
    exec (.gen n) s = .next { s with idx := BitVec.ofNat 6 n.toNat, mult := BitVec.ofNat 16 (G n.toNat), prod := 0, status := (s.status &&& 0xF0) ||| 0x01 }) ∧
  (∀ (s : State) (n : Byte), s.halted = false → 61 < n.toNat →
    exec (.gen n) s = .next { s with status := (s.status &&& 0x1F) ||| 0x40, finfo := joinFields 0x03 n 0x00 }) ∧
  (∀ (s : State) (n : Byte) (k : NoteIndex), s.halted = false → n.toNat = k.val →
    (tblRead s.rom k = BitVec.ofNat 16 (G k.val) → exec (.gen n) s = exec (.lookup n) s) ∧
    (tblRead s.rom k ≠ BitVec.ofNat 16 (G k.val) → ∃ t u, exec (.gen n) s = .next t ∧ exec (.lookup n) s = .next u ∧
      t.mult ≠ u.mult ∧ t = { u with mult := t.mult })) ∧
  G 0 = 0x0040 ∧ G 6 = 0x005B ∧ G 56 = 0x0659 ∧ G 61 = 0x087A ∧ decode 0x032400 = .ok (.gen 36) ∧
  exec (.gen 36) State.reset = .next { State.reset with idx := 36, mult := 0x0200, status := 0x01 }

/-- R102. -/
def Obligations.VerifyComparesTheWholeTable : Prop :=
  decode 0x040000 = .ok .verify ∧
  (∀ s : State, s.halted = false → (∀ n : NoteIndex, tblRead s.rom n = BitVec.ofNat 16 (G n.val)) →
    exec .verify s = .next { s with status := s.status ||| 0x10 }) ∧
  (∀ (s : State) (n : NoteIndex), s.halted = false → tblRead s.rom n ≠ BitVec.ofNat 16 (G n.val) →
    (∀ k : NoteIndex, k < n → tblRead s.rom k = BitVec.ofNat 16 (G k.val)) →
    exec .verify s = .next { s with status := (s.status &&& 0x1F) ||| 0x80, finfo := BitVec.ofNat 24 (0x040000 + n.val * 256) }) ∧
  exec .verify State.reset = .next { State.reset with status := 0x10 }

/-- R111. -/
def Obligations.ScaleMultipliesExactlyOrFaults : Prop :=
  (∀ d : Byte, decode (joinFields 0x05 d 0x00) = .ok (.scale d)) ∧
  (∀ (s : State) (d : Byte), s.halted = false → s.mv = true →
    exec (.scale d) s = .next { s with prod := BitVec.ofNat 24 (d.toNat * s.mult.toNat), status := (s.status &&& 0xF3) ||| (if 65536 ≤ d.toNat * s.mult.toNat then 0x0C else 0x04) }) ∧
  (∀ (s : State) (d : Byte), (BitVec.ofNat 24 (d.toNat * s.mult.toNat)).toNat = d.toNat * s.mult.toNat) ∧
  (∀ (s : State) (d : Byte), s.halted = false → s.mv = false →
    exec (.scale d) s = .next { s with status := (s.status &&& 0x1F) ||| 0x60, finfo := joinFields 0x05 d 0x00 }) ∧
  (∀ (s t : State) (d : Byte), s.halted = false → s.mv = true → exec (.scale d) s = .next t →
    t.prodInt.toNat = d.toNat * s.mult.toNat / 256 ∧ t.div8.toNat = d.toNat * s.mult.toNat / 256 % 256 ∧
    t.prodFrac.toNat = d.toNat * s.mult.toNat % 256) ∧
  decode 0x054000 = .ok (.scale 0x40) ∧
  exec (.scale 0x40) { State.reset with idx := 24, mult := 0x0100, status := 0x01 } =
    .next { State.reset with idx := 24, mult := 0x0100, prod := 0x004000, status := 0x05 }

/-- R90: a completed lookup, of any of the three commands that make one, is one write-back. -/
def Obligations.CompletedLookupsShareOneWriteBack : Prop :=
  ∀ (i : Instr) (s t : State), ((∃ n, i = .lookup n) ∨ (∃ e b, i = .lookuprel e b) ∨ (∃ n, i = .gen n)) →
    s.halted = false → exec i s = .next t → t.halted = false →
    ∃ (k : NoteIndex) (m : Entry) (cl : Bool),
      t = { s with idx := BitVec.ofNat 6 k.val, mult := m, prod := 0, status := t.status } ∧
      t.mv = true ∧ t.cl = cl ∧ t.pv = false ∧ t.tr = false ∧ t.vf = s.vf ∧ t.cause = s.cause

/-- R26: the write matrix, row by row, for a command that completes and for one that faults, and for an illegal word. -/
def Obligations.CommandsWriteOnlyTheirRegisters : Prop :=
  (∀ (s : State) (w : Word) (e : DecodeError), s.halted = false → decode w = .error e →
    execWord w s = .next { s with status := (s.status &&& 0x1F) ||| 0x20, finfo := w }) ∧
  ∀ (i : Instr) (s t : State), s.halted = false → exec i s = .next t →
    (t.halted = true → t = { s with status := t.status, finfo := t.finfo } ∧ t.status &&& 0x1F = s.status &&& 0x1F) ∧
    (t.halted = false → t.finfo = s.finfo ∧ t.status &&& 0xE0 = s.status &&& 0xE0 ∧
      match i with
      | .nop => t = s
      | .lookup _ | .gen _ => t = { s with idx := t.idx, mult := t.mult, prod := 0, status := (s.status &&& 0xF0) ||| 0x01 }
      | .lookuprel _ _ => t = { s with idx := t.idx, mult := t.mult, prod := 0, status := t.status } ∧
          t.status &&& 0xFD = (s.status &&& 0xF0) ||| 0x01
      | .verify => t = { s with status := s.status ||| 0x10 }
      | .scale _ => t = { s with prod := t.prod, status := t.status } ∧ t.status &&& 0xF7 = (s.status &&& 0xF3) ||| 0x04) ∧
    ((i = .nop ∨ ∃ e b, i = .lookuprel e b) → t.halted = false)

/-- R32: what a completed LOOKUP, LOOKUPREL or GEN leaves in the data registers and the lookup flags depends on the operands
(and the table) alone, not on what came before. -/
def Obligations.LookupResultsDependOnOperandsAlone : Prop :=
  ∀ (i : Instr) (s s' t t' : State), ((∃ n, i = .lookup n) ∨ (∃ e b, i = .lookuprel e b) ∨ (∃ n, i = .gen n)) →
    s.halted = false → s'.halted = false → s.rom = s'.rom → exec i s = .next t → exec i s' = .next t' →
    (t.halted = t'.halted) ∧
    (t.halted = false → t.idx = t'.idx ∧ t.mult = t'.mult ∧ t.prod = t'.prod ∧ t.status &&& 0x0F = t'.status &&& 0x0F) ∧
    (t.halted = true → t.cause = t'.cause ∧ t.finfo = t'.finfo)

/-- R114: the ranges of a SCALE on the conforming table. -/
def Obligations.ConformingProductsStayInRange : Prop :=
  ∀ (s t : State) (d : Byte), Inv s → RomConforms s.rom → s.halted = false → s.mv = true → exec (.scale d) s = .next t →
    0x0040 ≤ s.mult.toNat ∧ s.mult.toNat ≤ 0x087A ∧ t.prod.toNat ≤ 553350 ∧ t.prod.extractLsb' 20 4 = 0 ∧
    (t.tr = true ↔ 65536 ≤ d.toNat * s.mult.toNat) ∧
    (s.mult.toNat ≤ 0x0100 ↔ s.idx.toNat ≤ 24) ∧ (s.mult.toNat ≤ 0x0100 → t.tr = false) ∧
    (s.mult = 0x0200 → (t.tr = true ↔ 128 ≤ d.toNat)) ∧ (s.mult = 0x0800 → (t.tr = true ↔ 32 ≤ d.toNat)) ∧
    (s.mult = 0x087A → (t.tr = true ↔ 31 ≤ d.toNat)) ∧
    (t.prodInt = 0 ↔ d.toNat * s.mult.toNat < 256) ∧ (s.mult = 0x0040 → (t.prodInt = 0 ↔ d.toNat ≤ 3))

/-! Faults (60_exceptions.md). -/

/-- R163: faults are precise: the step that records one accepted a word, wrote CAUSE and FINFO and no other register. -/
def Obligations.FaultsAreRecordedPrecisely : Prop :=
  ∀ s t : State, step s = .next t → s.halted = false → t.halted = true →
    ∃ w rest, s.inputs = .command w :: rest ∧
      t = { s with inputs := rest, pos := s.pos + 1, status := t.status, finfo := t.finfo } ∧
      t.status &&& 0x1F = s.status &&& 0x1F ∧ 1 ≤ t.cause.toNat ∧ t.cause.toNat ≤ 4

/-- R160: each cause has its command and its condition, and FINFO what the table of causes says. -/
def Obligations.EachCauseHasItsCondition : Prop :=
  ∀ (s t : State) (w : Word) (rest : List HostInput), s.inputs = .command w :: rest → s.halted = false → step s = .next t →
    (t.cause = 1 ↔ ∃ e, decode w = .error e) ∧
    (t.cause = 2 ↔ ∃ n : Byte, 61 < n.toNat ∧ (decode w = .ok (.lookup n) ∨ decode w = .ok (.gen n))) ∧
    (t.cause = 3 ↔ s.mv = false ∧ ∃ d, decode w = .ok (.scale d)) ∧
    (t.cause = 4 ↔ decode w = .ok .verify ∧ ∃ n : NoteIndex, tblRead s.rom n ≠ BitVec.ofNat 16 (G n.val)) ∧
    t.cause.toNat ≤ 4 ∧
    (t.cause = 1 ∨ t.cause = 2 ∨ t.cause = 3 → t.finfo = w) ∧
    (t.cause = 4 → ∃ n : NoteIndex, tblRead s.rom n ≠ BitVec.ofNat 16 (G n.val) ∧
      (∀ k : NoteIndex, k < n → tblRead s.rom k = BitVec.ofNat 16 (G k.val)) ∧
      t.finfo = BitVec.ofNat 24 (0x040000 + n.val * 256)) ∧
    (t.cause = 0 → t.finfo = s.finfo)

/-- R162: decoding is checked first, so LOOKUP with an index out of range and a non-zero third byte is IllegalCommand. -/
def Obligations.DecodingIsCheckedFirst : Prop :=
  ∀ (s : State) (n b : Byte) (rest : List HostInput), s.inputs = .command (joinFields 0x01 n b) :: rest →
    s.halted = false → 61 < n.toNat →
    ∃ t, step s = .next t ∧ t.cause = (if b = 0 then FaultCause.indexOutOfRange.code else FaultCause.illegalCommand.code)

/-- R164: a halted block: fault 1, ready 0, no command accepted, no register changed by anything but reset. That a presented
word answers the fault outcome there, carrying CAUSE and FINFO, is the model's reading (log 3, log 4), and so is that other
actions of the environment still step (log 4). -/
def Obligations.HaltedBlockAcceptsNothing : Prop :=
  ∀ s : State, s.halted = true →
    s.ports.fault = true ∧ s.ports.cmdReady = false ∧
    (∀ w rest, s.inputs = .command w :: rest → step s = .fault (.halted s.cause s.finfo)) ∧
    (∀ t, step s = .next t → (∀ p rest, s.inputs ≠ .reset p :: rest) →
      t = { s with inputs := t.inputs, chip := t.chip })

/-- R165: no run without a reset leaves the halted state, however long; reset does. -/
def Obligations.OnlyResetLeavesTheHaltedState : Prop :=
  (∀ (k : Nat) (s t : State), s.halted = true → (∀ p, HostInput.reset p ∉ s.inputs) → Host.Core.run core k s = .next t →
    t.halted = true ∧ t.idx = s.idx ∧ t.mult = s.mult ∧ t.prod = s.prod ∧ t.status = s.status ∧ t.finfo = s.finfo) ∧
  (∀ (s : State) (p : Option Word) (rest : List HostInput), s.inputs = .reset p :: rest →
    ∃ t, step s = .next t ∧ t.halted = false ∧ t.idx = 0 ∧ t.mult = 0 ∧ t.prod = 0 ∧ t.status = 0 ∧ t.finfo = 0 ∧ t.rom = s.rom)

/-! The table and the generator (20_memory.md, 41_generate.md). -/

/-- R51: nothing writes the table. -/
def Obligations.TableNeverChanges : Prop :=
  ∀ s t : State, step s = .next t → t.rom = s.rom ∧ ∀ n : NoteIndex, tblRead t.rom n = tblRead s.rom n

/-- R60: which command reads which entries: another ROM that agrees there gives the same outcome (up to the ROM), and VERIFY
sees a wrong value in any entry. -/
def Obligations.CommandsReadOnlyTheirEntries : Prop :=
  (∀ (s t : State) (m : Memory) (n : Byte) (k : NoteIndex), n.toNat = k.val → tblRead m k = tblRead s.rom k →
    exec (.lookup n) s = .next t → exec (.lookup n) { s with rom := m } = .next { t with rom := m }) ∧
  (∀ (s t : State) (m : Memory) (e b : Byte) (k : NoteIndex), (k.val : Int) = max 0 (min 61 ((e.toNat : Int) - b.toNat + 24)) →
    tblRead m k = tblRead s.rom k → exec (.lookuprel e b) s = .next t →
    exec (.lookuprel e b) { s with rom := m } = .next { t with rom := m }) ∧
  (∀ (s t : State) (m : Memory) (i : Instr), (i = .nop ∨ (∃ n, i = .gen n) ∨ ∃ d, i = .scale d) →
    exec i s = .next t → exec i { s with rom := m } = .next { t with rom := m }) ∧
  (∀ (s t : State) (k : NoteIndex) (v : Entry), v ≠ BitVec.ofNat 16 (G k.val) →
    exec .verify { s with rom := Memory.setEntry State.reset.rom k v } = .next t → t.cause = 4)

/-- R57: the byte view of the table: fraction byte at 2n, integer byte at 2n + 1. -/
def Obligations.EntryIsTwoBytesLittleEndian : Prop :=
  ∀ (m : Memory) (n : NoteIndex) (lo hi : Fin romBytes), lo.val = 2 * n.val → hi.val = 2 * n.val + 1 →
    (tblRead m n).toNat = 256 * (Memory.readByte m hi).toNat + (Memory.readByte m lo).toNat

/-- R52: the 62 stored entries; each is what the formula gives, with the integer byte, the fraction byte and the rate of its
row. -/
def Obligations.StoredTableHoldsTheFormula : Prop :=
  (List.finRange 62).map (fun n => tblRead State.reset.rom n) =
    [64, 68, 72, 76, 81, 85, 91, 96, 102, 108, 114, 121] ++
    [128, 136, 144, 152, 161, 171, 181, 192, 203, 215, 228, 242] ++
    [256, 271, 287, 304, 323, 342, 362, 384, 406, 431, 456, 483] ++
    [512, 542, 575, 609, 645, 683, 724, 767, 813, 861, 912, 967] ++
    [1024, 1085, 1149, 1218, 1290, 1367, 1448, 1534, 1625, 1722, 1825, 1933] ++ [2048, 2170] ∧
  ∀ n : NoteIndex, (tblRead State.reset.rom n).toNat = G n.val ∧
    (Memory.readByte State.reset.rom (integerAddr n)).toNat = G n.val / 256 ∧
    (Memory.readByte State.reset.rom (fractionAddr n)).toNat = G n.val % 256 ∧
    rate (tblRead State.reset.rom n) * 256 = (G n.val : Rat)

/-- R53: the generator is the real formula rounded to the nearest integer, a half up. -/
def Obligations.GeneratorIsTheRoundedFormula : Prop :=
  ∀ n : Nat, (G n : Int) = round ((256 : ℝ) * (2 : ℝ) ^ (((n : ℝ) - 24) / 12))

/-- R54: the generator is the unique solution of the two inequalities, by way of the integer twelfth root. -/
def Obligations.GeneratorIsTheUniqueSolution : Prop :=
  (∀ t r : Nat, iroot12 t = r ↔ r ^ 12 ≤ t ∧ t < (r + 1) ^ 12) ∧
  (∀ n : Nat, G n = (iroot12 (2 ^ (n + 84)) + 1) / 2) ∧
  (∀ n m : Nat, 0 < m → ((2 * m - 1) ^ 12 < 2 ^ (n + 84) ∧ 2 ^ (n + 84) < (2 * m + 1) ^ 12 ↔ m = G n)) ∧
  (∀ n : Nat, n ≤ 119 → G n < 2 ^ 16) ∧ G 119 = 61858 ∧ G 120 = 65536

/-- R55: no value is a tie: rounding a half down gives the same entries; truncation differs at 26 indices, the first being 1. -/
def Obligations.RoundingHasNoTieButTruncationDiffers : Prop :=
  (∀ n : Nat, (G n : Int) = Int.ceil ((256 : ℝ) * (2 : ℝ) ^ (((n : ℝ) - 24) / 12) - 1 / 2)) ∧
  (∀ n : Nat, (Int.floor ((256 : ℝ) * (2 : ℝ) ^ (((n : ℝ) - 24) / 12)) : Int) = (iroot12 (2 ^ (n + 84)) / 2 : Nat)) ∧
  ((List.range 62).filter fun n => decide (iroot12 (2 ^ (n + 84)) / 2 ≠ G n)).length = 26 ∧
  iroot12 (2 ^ 84) / 2 = G 0 ∧ iroot12 (2 ^ 85) / 2 = 67 ∧ G 1 = 68

/-- R67: anchors, strict order, ends, and the least and greatest steps. -/
def Obligations.StoredTableAnchorsAndOrder : Prop :=
  tblRead State.reset.rom 24 = 0x0100 ∧ tblRead State.reset.rom 36 = 0x0200 ∧ tblRead State.reset.rom 12 = 0x0080 ∧
  tblRead State.reset.rom 0 = 0x0040 ∧ tblRead State.reset.rom 48 = 0x0400 ∧ tblRead State.reset.rom 60 = 0x0800 ∧
  tblRead State.reset.rom 61 = 0x087A ∧
  (∀ n k : NoteIndex, n < k → (tblRead State.reset.rom n).toNat < (tblRead State.reset.rom k).toNat) ∧
  (∀ n k : NoteIndex, k.val = n.val + 1 →
    4 ≤ (tblRead State.reset.rom k).toNat - (tblRead State.reset.rom n).toNat ∧
    (tblRead State.reset.rom k).toNat - (tblRead State.reset.rom n).toNat ≤ 122 ∧
    ((tblRead State.reset.rom k).toNat - (tblRead State.reset.rom n).toNat = 4 ↔ n.val ∈ [0, 1, 2, 4]) ∧
    ((tblRead State.reset.rom k).toNat - (tblRead State.reset.rom n).toNat = 122 ↔ n.val = 60))

/-- R68: one octave is not the double of another at 24 of 50 indices. -/
def Obligations.TableIsNotPeriodicUnderDoubling : Prop :=
  ((List.range 50).filter fun n => decide (G (n + 12) ≠ 2 * G n)).length = 24 ∧
  G 6 = 91 ∧ G 18 = 181 ∧ G 44 = 813 ∧ G 56 = 1625

/-- R104: on the conforming table cause 4 is unreachable; on any other the lookups return what the ROM holds, GEN what the
formula gives, and VERIFY faults. -/
def Obligations.TableContentsAreAParameter : Prop :=
  (∀ s t : State, RomConforms s.rom → step s = .next t → t.cause = 4 → s.cause = 4) ∧
  (∀ (s : State) (k : NoteIndex) (v : Entry) (n e b : Byte), s.halted = false → n.toNat = k.val →
    (e.toNat : Int) - b.toNat + 24 = k.val → s.rom = Memory.setEntry State.reset.rom k v → v ≠ BitVec.ofNat 16 (G k.val) →
    ∃ t u x y, exec (.lookup n) s = .next t ∧ t.mult = v ∧ exec (.lookuprel e b) s = .next u ∧ u.mult = v ∧
      exec (.gen n) s = .next x ∧ x.mult = BitVec.ofNat 16 (G k.val) ∧
      exec .verify s = .next y ∧ y.cause = 4 ∧ y.finfo = BitVec.ofNat 24 (0x040000 + k.val * 256))

/-! Invariants (10_state.md R36) and runs (70_reset_and_hazards.md R193, R195). -/

/-- R36: every step keeps the invariants, in every state that has them. -/
def Obligations.EveryStepKeepsTheInvariants : Prop :=
  ∀ s t : State, Inv s → step s = .next t → Inv t

/-- R34, R36: the invariants hold at reset, with any ROM and any environment. -/
def Obligations.ResetMeetsTheInvariants : Prop :=
  Inv State.reset ∧ ∀ (rom : Memory) (chip : Chip) (inputs : List HostInput), Inv (startState rom chip inputs)

/-- R36: the invariants hold in every state reachable from reset by any command stream, with any ROM. -/
def Obligations.ReachableStatesMeetTheInvariants : Prop :=
  ∀ (k : Nat) (rom : Memory) (chip : Chip) (inputs : List HostInput) (t : State),
    Host.Core.run core k (startState rom chip inputs) = .next t → Inv t

/-- R193, R195: on the conforming table a command stream runs to its normal end exactly when every absolute index is in range
and every SCALE comes after a completed lookup. The stream holds command words only, so the model's wider notion of a run
(log 16) plays no part; that the stream and the position stand in State is log 1. -/
def Obligations.LegalStreamsAreThoseThatComplete : Prop :=
  ∀ (rom : Memory) (chip : Chip) (is : List Instr), RomConforms rom →
    (LegalStream false is ↔
      ∃ t, RunCompletes is.length (startState rom chip (commandInputs is)) t ∧ t.pos = is.length)

/-! The environment (48_env_chip_initializer.md). -/

/-- 10_state.md R33: no command of the block reads or writes the sound chip or the auxiliary state. -/
def Obligations.CommandsNeverTouchTheChip : Prop :=
  ∀ (i : Instr) (s t : State) (c : Chip), exec i s = .next t →
    t.chip = s.chip ∧ exec i { s with chip := c } = .next { t with chip := c }

/-- R130, R138, R27: a chip write changes its one register and the log, and no register of the block. That a host's chip write
is a step of the model is its choice (log 1), also on a halted block (log 4). -/
def Obligations.ChipWriteChangesOneRegister : Prop :=
  (∀ (s : State) (r : ChipReg) (v : Byte) (rest : List HostInput), s.inputs = .chipWrite r v :: rest →
    ∃ c, step s = .next { s with inputs := rest, chip := c } ∧ c.log = s.chip.log ++ [⟨r, v⟩] ∧ c.regs.get r = v ∧
      ∀ r', r' ≠ r → c.regs.get r' = s.chip.regs.get r') ∧
  (∀ s t : State, step s = .next t → (∀ w rest, s.inputs ≠ .command w :: rest) → (∀ p rest, s.inputs ≠ .reset p :: rest) →
    t.ports = s.ports)

/-- R154: the log of one Initialize and the state it ends in, from any chip state, once or twice. -/
def Obligations.InitializeEndsInTheConfiguredState : Prop :=
  ∀ (p : InitParams) (c : Chip), p.wellFormed = true →
    (∃ vs ds : List Voice, vs.Perm Voice.all ∧ ds.Perm Voice.all ∧
      initializeLog p = [⟨.interruptEnableMask, 0x00⟩, ⟨.systemControl, 0x00⟩] ++
        vs.map (fun v => ⟨.voiceControl v, p.voiceSilent⟩) ++ ds.map (fun v => ⟨.frequencyDivisor v, p.audf1Val⟩) ++
        [⟨.auxPlaybackState, p.auxInit⟩, ⟨.audioControlConfig, p.audctlVal⟩, ⟨.systemControl, p.skctlNormal⟩,
         ⟨.interruptEnableMask, p.irqMask⟩]) ∧
    (∃ counters : Bool, (c.writeAll (initializeLog p)).regs =
      { interruptEnableMask := p.irqMask, systemControl := p.skctlNormal, voiceControl := .const p.voiceSilent,
        frequencyDivisor := .const p.audf1Val, audioControlConfig := p.audctlVal, auxPlaybackState := p.auxInit,
        countersDeterministic := counters }) ∧
    ∀ r : ChipReg, ((c.writeAll (initializeLog p)).writeAll (initializeLog p)).regs.get r = (c.writeAll (initializeLog p)).regs.get r

/-- R151: the step-order property of a recording of Initialize, and idempotence. -/
def Obligations.InitializeKeepsItsStepOrder : Prop :=
  ∀ (p : InitParams) (c : Chip), p.wellFormed = true →
    InitOrderKept p (initializeLog p) ∧
    ∀ r : ChipReg, ((c.writeAll (initializeLog p)).writeAll (initializeLog p)).regs.get r = (c.writeAll (initializeLog p)).regs.get r

/-- R137: after Initialize the chip is silent and in normal mode; interrupts stay disabled from the first write until the
last. The bit for the internal counters in `SilentAndReady` is the model's choice (log 8), and so is that every value of
SystemControl but 0 counts as out of initialization mode (log 17). -/
def Obligations.InitializeSilencesBeforeInterrupts : Prop :=
  ∀ (p : InitParams) (c : Chip), p.wellFormed = true →
    SilentAndReady p (c.writeAll (initializeLog p)).regs ∧
    SilentAndReady p (c.writeAll (initializeBody p)).regs ∧
    ∀ first later, initializeBody p = first ++ later → first ≠ [] →
      (c.writeAll first).regs.interruptEnableMask = 0

/-- 70_reset_and_hazards.md R194: Initialize runs as host actions at any time and the block keeps its state. The model's
choices: the host's writes are steps (log 1), also on a halted block (log 4), and the settling delay is idle moments
(log 11). -/
def Obligations.InitializeLeavesTheBlockAlone : Prop :=
  ∀ (p : InitParams) (s : State) (rest : List HostInput), s.inputs = initializeInputs p ++ rest →
    Host.Core.run core (initializeInputs p).length s =
      .next { s with inputs := rest, chip := s.chip.writeAll (initializeLog p) }
end

