-- ==== Sys2Proof/Laws/Decode.lean ====
section
/-! SUPPORT. A word is its three fields (30_encoding.md R70), and what decoding reads from fields. -/

namespace Sys2Proof

@[simp] theorem opField_joinFields (op a b : Byte) : opField (joinFields op a b) = op := by
  apply BitVec.eq_of_getLsbD_eq
  intro i hi
  simp only [opField, joinFields, BitVec.getLsbD_extractLsb', BitVec.getLsbD_append]
  rw [decide_eq_true hi, if_neg (by omega), if_neg (by omega), Bool.true_and]
  congr 1
  omega

@[simp] theorem aField_joinFields (op a b : Byte) : aField (joinFields op a b) = a := by
  apply BitVec.eq_of_getLsbD_eq
  intro i hi
  simp only [aField, joinFields, BitVec.getLsbD_extractLsb', BitVec.getLsbD_append]
  rw [decide_eq_true hi, if_neg (by omega), if_pos (by omega), Bool.true_and]
  congr 1
  omega

@[simp] theorem bField_joinFields (op a b : Byte) : bField (joinFields op a b) = b := by
  apply BitVec.eq_of_getLsbD_eq
  intro i hi
  simp only [bField, joinFields, BitVec.getLsbD_extractLsb', BitVec.getLsbD_append]
  rw [decide_eq_true hi, if_pos (by omega), Bool.true_and]
  congr 1
  omega

/-- A word is the joining of its fields. -/
theorem joinFields_fields (w : Word) : joinFields (opField w) (aField w) (bField w) = w := by
  apply BitVec.eq_of_getLsbD_eq
  intro i hi
  simp only [joinFields, opField, aField, bField, BitVec.getLsbD_append, BitVec.getLsbD_extractLsb']
  split_ifs
  · simp only [*, decide_true, Bool.true_and, Nat.zero_add]
  · rw [decide_eq_true (by omega), Bool.true_and]
    congr 1
    omega
  · rw [decide_eq_true (by omega), Bool.true_and]
    congr 1
    omega

theorem decode_joinFields (op a b : Byte) : decode (joinFields op a b) = decodeFields op a b := by
  simp [decode]

/-- What fields decode to a command: one case for each row of R74. -/
theorem decodeFields_ok {op a b : Byte} {i : Instr} (h : decodeFields op a b = .ok i) :
    (op = 0 ∧ a = 0 ∧ b = 0 ∧ i = .nop) ∨ (op = 1 ∧ b = 0 ∧ i = .lookup a) ∨ (op = 2 ∧ i = .lookuprel a b) ∨
    (op = 3 ∧ b = 0 ∧ i = .gen a) ∨ (op = 4 ∧ a = 0 ∧ b = 0 ∧ i = .verify) ∨ (op = 5 ∧ b = 0 ∧ i = .scale a) := by
  unfold decodeFields at h
  split_ifs at h <;> simp_all

end Sys2Proof
end

