-- ==== Sys2Proof/Laws/State.lean ====
section
/-! SUPPORT. One lemma per field per update, so that no later proof unfolds a record update or the packing of STATUS. -/

namespace Sys2Proof.Machine


@[simp] theorem writeMult_idx (i : NoteIndex) (m : Entry) (cl : Bool) (s : State) : (writeMult i m cl s).idx = BitVec.ofNat 6 i.val := rfl
@[simp] theorem writeMult_mult (i : NoteIndex) (m : Entry) (cl : Bool) (s : State) : (writeMult i m cl s).mult = m := rfl
@[simp] theorem writeMult_prod (i : NoteIndex) (m : Entry) (cl : Bool) (s : State) : (writeMult i m cl s).prod = 0 := rfl
@[simp] theorem writeMult_status (i : NoteIndex) (m : Entry) (cl : Bool) (s : State) : (writeMult i m cl s).status = statusAfterLookup cl s := rfl
@[simp] theorem writeMult_finfo (i : NoteIndex) (m : Entry) (cl : Bool) (s : State) : (writeMult i m cl s).finfo = s.finfo := rfl
@[simp] theorem writeMult_rom (i : NoteIndex) (m : Entry) (cl : Bool) (s : State) : (writeMult i m cl s).rom = s.rom := rfl
@[simp] theorem writeMult_chip (i : NoteIndex) (m : Entry) (cl : Bool) (s : State) : (writeMult i m cl s).chip = s.chip := rfl
@[simp] theorem writeMult_inputs (i : NoteIndex) (m : Entry) (cl : Bool) (s : State) : (writeMult i m cl s).inputs = s.inputs := rfl
@[simp] theorem writeMult_pos (i : NoteIndex) (m : Entry) (cl : Bool) (s : State) : (writeMult i m cl s).pos = s.pos := rfl

@[simp] theorem writeProd_idx (p : Nat) (s : State) : (writeProd p s).idx = s.idx := rfl
@[simp] theorem writeProd_mult (p : Nat) (s : State) : (writeProd p s).mult = s.mult := rfl
@[simp] theorem writeProd_prod (p : Nat) (s : State) : (writeProd p s).prod = BitVec.ofNat 24 p := rfl
@[simp] theorem writeProd_status (p : Nat) (s : State) : (writeProd p s).status = statusAfterScale (truncationLost p) s := rfl
@[simp] theorem writeProd_finfo (p : Nat) (s : State) : (writeProd p s).finfo = s.finfo := rfl
@[simp] theorem writeProd_rom (p : Nat) (s : State) : (writeProd p s).rom = s.rom := rfl
@[simp] theorem writeProd_chip (p : Nat) (s : State) : (writeProd p s).chip = s.chip := rfl
@[simp] theorem writeProd_inputs (p : Nat) (s : State) : (writeProd p s).inputs = s.inputs := rfl
@[simp] theorem writeProd_pos (p : Nat) (s : State) : (writeProd p s).pos = s.pos := rfl

@[simp] theorem setVerified_idx (s : State) : (setVerified s).idx = s.idx := rfl
@[simp] theorem setVerified_mult (s : State) : (setVerified s).mult = s.mult := rfl
@[simp] theorem setVerified_prod (s : State) : (setVerified s).prod = s.prod := rfl
@[simp] theorem setVerified_status (s : State) : (setVerified s).status = statusAfterVerify s := rfl
@[simp] theorem setVerified_finfo (s : State) : (setVerified s).finfo = s.finfo := rfl
@[simp] theorem setVerified_rom (s : State) : (setVerified s).rom = s.rom := rfl
@[simp] theorem setVerified_chip (s : State) : (setVerified s).chip = s.chip := rfl
@[simp] theorem setVerified_inputs (s : State) : (setVerified s).inputs = s.inputs := rfl
@[simp] theorem setVerified_pos (s : State) : (setVerified s).pos = s.pos := rfl

@[simp] theorem raise_idx (c : FaultCause) (info : Word) (s : State) : (raise c info s).idx = s.idx := rfl
@[simp] theorem raise_mult (c : FaultCause) (info : Word) (s : State) : (raise c info s).mult = s.mult := rfl
@[simp] theorem raise_prod (c : FaultCause) (info : Word) (s : State) : (raise c info s).prod = s.prod := rfl
@[simp] theorem raise_status (c : FaultCause) (info : Word) (s : State) : (raise c info s).status = statusAfterFault c s := rfl
@[simp] theorem raise_finfo (c : FaultCause) (info : Word) (s : State) : (raise c info s).finfo = info := rfl
@[simp] theorem raise_rom (c : FaultCause) (info : Word) (s : State) : (raise c info s).rom = s.rom := rfl
@[simp] theorem raise_chip (c : FaultCause) (info : Word) (s : State) : (raise c info s).chip = s.chip := rfl
@[simp] theorem raise_inputs (c : FaultCause) (info : Word) (s : State) : (raise c info s).inputs = s.inputs := rfl
@[simp] theorem raise_pos (c : FaultCause) (info : Word) (s : State) : (raise c info s).pos = s.pos := rfl

@[simp] theorem resetBlock_idx (s : State) : (resetBlock s).idx = 0 := rfl
@[simp] theorem resetBlock_mult (s : State) : (resetBlock s).mult = 0 := rfl
@[simp] theorem resetBlock_prod (s : State) : (resetBlock s).prod = 0 := rfl
@[simp] theorem resetBlock_status (s : State) : (resetBlock s).status = 0 := rfl
@[simp] theorem resetBlock_finfo (s : State) : (resetBlock s).finfo = 0 := rfl
@[simp] theorem resetBlock_rom (s : State) : (resetBlock s).rom = s.rom := rfl
@[simp] theorem resetBlock_chip (s : State) : (resetBlock s).chip = s.chip := rfl
@[simp] theorem resetBlock_inputs (s : State) : (resetBlock s).inputs = s.inputs := rfl
@[simp] theorem resetBlock_pos (s : State) : (resetBlock s).pos = s.pos := rfl

@[simp] theorem takeInput_idx (rest : List HostInput) (s : State) : (takeInput rest s).idx = s.idx := rfl
@[simp] theorem takeInput_mult (rest : List HostInput) (s : State) : (takeInput rest s).mult = s.mult := rfl
@[simp] theorem takeInput_prod (rest : List HostInput) (s : State) : (takeInput rest s).prod = s.prod := rfl
@[simp] theorem takeInput_status (rest : List HostInput) (s : State) : (takeInput rest s).status = s.status := rfl
@[simp] theorem takeInput_finfo (rest : List HostInput) (s : State) : (takeInput rest s).finfo = s.finfo := rfl
@[simp] theorem takeInput_rom (rest : List HostInput) (s : State) : (takeInput rest s).rom = s.rom := rfl
@[simp] theorem takeInput_chip (rest : List HostInput) (s : State) : (takeInput rest s).chip = s.chip := rfl
@[simp] theorem takeInput_inputs (rest : List HostInput) (s : State) : (takeInput rest s).inputs = rest := rfl
@[simp] theorem takeInput_pos (rest : List HostInput) (s : State) : (takeInput rest s).pos = s.pos := rfl

@[simp] theorem acceptCommand_idx (rest : List HostInput) (s : State) : (acceptCommand rest s).idx = s.idx := rfl
@[simp] theorem acceptCommand_mult (rest : List HostInput) (s : State) : (acceptCommand rest s).mult = s.mult := rfl
@[simp] theorem acceptCommand_prod (rest : List HostInput) (s : State) : (acceptCommand rest s).prod = s.prod := rfl
@[simp] theorem acceptCommand_status (rest : List HostInput) (s : State) : (acceptCommand rest s).status = s.status := rfl
@[simp] theorem acceptCommand_finfo (rest : List HostInput) (s : State) : (acceptCommand rest s).finfo = s.finfo := rfl
@[simp] theorem acceptCommand_rom (rest : List HostInput) (s : State) : (acceptCommand rest s).rom = s.rom := rfl
@[simp] theorem acceptCommand_chip (rest : List HostInput) (s : State) : (acceptCommand rest s).chip = s.chip := rfl
@[simp] theorem acceptCommand_inputs (rest : List HostInput) (s : State) : (acceptCommand rest s).inputs = rest := rfl
@[simp] theorem acceptCommand_pos (rest : List HostInput) (s : State) : (acceptCommand rest s).pos = s.pos + 1 := rfl

@[simp] theorem presentFirst_idx (w : Word) (s : State) : (presentFirst w s).idx = s.idx := rfl
@[simp] theorem presentFirst_mult (w : Word) (s : State) : (presentFirst w s).mult = s.mult := rfl
@[simp] theorem presentFirst_prod (w : Word) (s : State) : (presentFirst w s).prod = s.prod := rfl
@[simp] theorem presentFirst_status (w : Word) (s : State) : (presentFirst w s).status = s.status := rfl
@[simp] theorem presentFirst_finfo (w : Word) (s : State) : (presentFirst w s).finfo = s.finfo := rfl
@[simp] theorem presentFirst_rom (w : Word) (s : State) : (presentFirst w s).rom = s.rom := rfl
@[simp] theorem presentFirst_chip (w : Word) (s : State) : (presentFirst w s).chip = s.chip := rfl
@[simp] theorem presentFirst_inputs (w : Word) (s : State) : (presentFirst w s).inputs = .command w :: s.inputs := rfl
@[simp] theorem presentFirst_pos (w : Word) (s : State) : (presentFirst w s).pos = s.pos := rfl

@[simp] theorem hostChipWrite_idx (r : ChipReg) (v : Byte) (s : State) : (hostChipWrite r v s).idx = s.idx := rfl
@[simp] theorem hostChipWrite_mult (r : ChipReg) (v : Byte) (s : State) : (hostChipWrite r v s).mult = s.mult := rfl
@[simp] theorem hostChipWrite_prod (r : ChipReg) (v : Byte) (s : State) : (hostChipWrite r v s).prod = s.prod := rfl
@[simp] theorem hostChipWrite_status (r : ChipReg) (v : Byte) (s : State) : (hostChipWrite r v s).status = s.status := rfl
@[simp] theorem hostChipWrite_finfo (r : ChipReg) (v : Byte) (s : State) : (hostChipWrite r v s).finfo = s.finfo := rfl
@[simp] theorem hostChipWrite_rom (r : ChipReg) (v : Byte) (s : State) : (hostChipWrite r v s).rom = s.rom := rfl
@[simp] theorem hostChipWrite_chip (r : ChipReg) (v : Byte) (s : State) : (hostChipWrite r v s).chip = s.chip.write ⟨r, v⟩ := rfl
@[simp] theorem hostChipWrite_inputs (r : ChipReg) (v : Byte) (s : State) : (hostChipWrite r v s).inputs = s.inputs := rfl
@[simp] theorem hostChipWrite_pos (r : ChipReg) (v : Byte) (s : State) : (hostChipWrite r v s).pos = s.pos := rfl

/-! The fields of a packed STATUS are the fields it was packed from (R24). -/

theorem packStatus_mv (mv cl pv tr vf : Bool) (cause : BitVec 3) :
    (packStatus mv cl pv tr vf cause).getLsbD 0 = mv := by
  revert mv cl pv tr vf cause; decide

theorem packStatus_cl (mv cl pv tr vf : Bool) (cause : BitVec 3) :
    (packStatus mv cl pv tr vf cause).getLsbD 1 = cl := by
  revert mv cl pv tr vf cause; decide

theorem packStatus_pv (mv cl pv tr vf : Bool) (cause : BitVec 3) :
    (packStatus mv cl pv tr vf cause).getLsbD 2 = pv := by
  revert mv cl pv tr vf cause; decide

theorem packStatus_tr (mv cl pv tr vf : Bool) (cause : BitVec 3) :
    (packStatus mv cl pv tr vf cause).getLsbD 3 = tr := by
  revert mv cl pv tr vf cause; decide

theorem packStatus_vf (mv cl pv tr vf : Bool) (cause : BitVec 3) :
    (packStatus mv cl pv tr vf cause).getLsbD 4 = vf := by
  revert mv cl pv tr vf cause; decide

theorem packStatus_cause (mv cl pv tr vf : Bool) (cause : BitVec 3) :
    (packStatus mv cl pv tr vf cause).extractLsb' 5 3 = cause := by
  revert mv cl pv tr vf cause; decide

/-- STATUS is the packing of its own fields (R24: all eight bits belong to a field). -/
theorem packStatus_fields (s : State) : packStatus s.mv s.cl s.pv s.tr s.vf s.cause = s.status := by
  have h : ∀ b : Byte, packStatus (b.getLsbD 0) (b.getLsbD 1) (b.getLsbD 2) (b.getLsbD 3) (b.getLsbD 4)
      (b.extractLsb' 5 3) = b := by decide
  exact h s.status

/-! The fields of STATUS after each update. -/

@[simp] theorem writeMult_mv (i : NoteIndex) (m : Entry) (cl : Bool) (s : State) : (writeMult i m cl s).mv = true := packStatus_mv ..
@[simp] theorem writeMult_cl (i : NoteIndex) (m : Entry) (cl : Bool) (s : State) : (writeMult i m cl s).cl = cl := packStatus_cl ..
@[simp] theorem writeMult_pv (i : NoteIndex) (m : Entry) (cl : Bool) (s : State) : (writeMult i m cl s).pv = false := packStatus_pv ..
@[simp] theorem writeMult_tr (i : NoteIndex) (m : Entry) (cl : Bool) (s : State) : (writeMult i m cl s).tr = false := packStatus_tr ..
@[simp] theorem writeMult_vf (i : NoteIndex) (m : Entry) (cl : Bool) (s : State) : (writeMult i m cl s).vf = s.vf := packStatus_vf ..
@[simp] theorem writeMult_cause (i : NoteIndex) (m : Entry) (cl : Bool) (s : State) : (writeMult i m cl s).cause = s.cause := packStatus_cause ..
@[simp] theorem writeMult_halted (i : NoteIndex) (m : Entry) (cl : Bool) (s : State) : (writeMult i m cl s).halted = s.halted := by simp [State.halted]

@[simp] theorem writeProd_mv (p : Nat) (s : State) : (writeProd p s).mv = s.mv := packStatus_mv ..
@[simp] theorem writeProd_cl (p : Nat) (s : State) : (writeProd p s).cl = s.cl := packStatus_cl ..
@[simp] theorem writeProd_pv (p : Nat) (s : State) : (writeProd p s).pv = true := packStatus_pv ..
@[simp] theorem writeProd_tr (p : Nat) (s : State) : (writeProd p s).tr = truncationLost p := packStatus_tr ..
@[simp] theorem writeProd_vf (p : Nat) (s : State) : (writeProd p s).vf = s.vf := packStatus_vf ..
@[simp] theorem writeProd_cause (p : Nat) (s : State) : (writeProd p s).cause = s.cause := packStatus_cause ..
@[simp] theorem writeProd_halted (p : Nat) (s : State) : (writeProd p s).halted = s.halted := by simp [State.halted]

@[simp] theorem setVerified_mv (s : State) : (setVerified s).mv = s.mv := packStatus_mv ..
@[simp] theorem setVerified_cl (s : State) : (setVerified s).cl = s.cl := packStatus_cl ..
@[simp] theorem setVerified_pv (s : State) : (setVerified s).pv = s.pv := packStatus_pv ..
@[simp] theorem setVerified_tr (s : State) : (setVerified s).tr = s.tr := packStatus_tr ..
@[simp] theorem setVerified_vf (s : State) : (setVerified s).vf = true := packStatus_vf ..
@[simp] theorem setVerified_cause (s : State) : (setVerified s).cause = s.cause := packStatus_cause ..
@[simp] theorem setVerified_halted (s : State) : (setVerified s).halted = s.halted := by simp [State.halted]

@[simp] theorem raise_mv (c : FaultCause) (info : Word) (s : State) : (raise c info s).mv = s.mv := packStatus_mv ..
@[simp] theorem raise_cl (c : FaultCause) (info : Word) (s : State) : (raise c info s).cl = s.cl := packStatus_cl ..
@[simp] theorem raise_pv (c : FaultCause) (info : Word) (s : State) : (raise c info s).pv = s.pv := packStatus_pv ..
@[simp] theorem raise_tr (c : FaultCause) (info : Word) (s : State) : (raise c info s).tr = s.tr := packStatus_tr ..
@[simp] theorem raise_vf (c : FaultCause) (info : Word) (s : State) : (raise c info s).vf = s.vf := packStatus_vf ..
@[simp] theorem raise_cause (c : FaultCause) (info : Word) (s : State) : (raise c info s).cause = c.code := packStatus_cause ..
@[simp] theorem raise_halted (c : FaultCause) (info : Word) (s : State) : (raise c info s).halted = true := by
  cases c <;> simp [State.halted, FaultCause.code]

@[simp] theorem resetBlock_mv (s : State) : (resetBlock s).mv = false := by simp [State.mv]
@[simp] theorem resetBlock_cl (s : State) : (resetBlock s).cl = false := by simp [State.cl]
@[simp] theorem resetBlock_pv (s : State) : (resetBlock s).pv = false := by simp [State.pv]
@[simp] theorem resetBlock_tr (s : State) : (resetBlock s).tr = false := by simp [State.tr]
@[simp] theorem resetBlock_vf (s : State) : (resetBlock s).vf = false := by simp [State.vf]
@[simp] theorem resetBlock_cause (s : State) : (resetBlock s).cause = 0 := by simp [State.cause]
@[simp] theorem resetBlock_halted (s : State) : (resetBlock s).halted = false := by simp [State.halted]

@[simp] theorem takeInput_mv (rest : List HostInput) (s : State) : (takeInput rest s).mv = s.mv := rfl
@[simp] theorem takeInput_cl (rest : List HostInput) (s : State) : (takeInput rest s).cl = s.cl := rfl
@[simp] theorem takeInput_pv (rest : List HostInput) (s : State) : (takeInput rest s).pv = s.pv := rfl
@[simp] theorem takeInput_tr (rest : List HostInput) (s : State) : (takeInput rest s).tr = s.tr := rfl
@[simp] theorem takeInput_vf (rest : List HostInput) (s : State) : (takeInput rest s).vf = s.vf := rfl
@[simp] theorem takeInput_cause (rest : List HostInput) (s : State) : (takeInput rest s).cause = s.cause := rfl
@[simp] theorem takeInput_halted (rest : List HostInput) (s : State) : (takeInput rest s).halted = s.halted := rfl

@[simp] theorem acceptCommand_mv (rest : List HostInput) (s : State) : (acceptCommand rest s).mv = s.mv := rfl
@[simp] theorem acceptCommand_cl (rest : List HostInput) (s : State) : (acceptCommand rest s).cl = s.cl := rfl
@[simp] theorem acceptCommand_pv (rest : List HostInput) (s : State) : (acceptCommand rest s).pv = s.pv := rfl
@[simp] theorem acceptCommand_tr (rest : List HostInput) (s : State) : (acceptCommand rest s).tr = s.tr := rfl
@[simp] theorem acceptCommand_vf (rest : List HostInput) (s : State) : (acceptCommand rest s).vf = s.vf := rfl
@[simp] theorem acceptCommand_cause (rest : List HostInput) (s : State) : (acceptCommand rest s).cause = s.cause := rfl
@[simp] theorem acceptCommand_halted (rest : List HostInput) (s : State) : (acceptCommand rest s).halted = s.halted := rfl

@[simp] theorem presentFirst_mv (w : Word) (s : State) : (presentFirst w s).mv = s.mv := rfl
@[simp] theorem presentFirst_cl (w : Word) (s : State) : (presentFirst w s).cl = s.cl := rfl
@[simp] theorem presentFirst_pv (w : Word) (s : State) : (presentFirst w s).pv = s.pv := rfl
@[simp] theorem presentFirst_tr (w : Word) (s : State) : (presentFirst w s).tr = s.tr := rfl
@[simp] theorem presentFirst_vf (w : Word) (s : State) : (presentFirst w s).vf = s.vf := rfl
@[simp] theorem presentFirst_cause (w : Word) (s : State) : (presentFirst w s).cause = s.cause := rfl
@[simp] theorem presentFirst_halted (w : Word) (s : State) : (presentFirst w s).halted = s.halted := rfl

@[simp] theorem hostChipWrite_mv (r : ChipReg) (v : Byte) (s : State) : (hostChipWrite r v s).mv = s.mv := rfl
@[simp] theorem hostChipWrite_cl (r : ChipReg) (v : Byte) (s : State) : (hostChipWrite r v s).cl = s.cl := rfl
@[simp] theorem hostChipWrite_pv (r : ChipReg) (v : Byte) (s : State) : (hostChipWrite r v s).pv = s.pv := rfl
@[simp] theorem hostChipWrite_tr (r : ChipReg) (v : Byte) (s : State) : (hostChipWrite r v s).tr = s.tr := rfl
@[simp] theorem hostChipWrite_vf (r : ChipReg) (v : Byte) (s : State) : (hostChipWrite r v s).vf = s.vf := rfl
@[simp] theorem hostChipWrite_cause (r : ChipReg) (v : Byte) (s : State) : (hostChipWrite r v s).cause = s.cause := rfl
@[simp] theorem hostChipWrite_halted (r : ChipReg) (v : Byte) (s : State) : (hostChipWrite r v s).halted = s.halted := rfl

end Sys2Proof.Machine
end

