-- ==== Sys2Proof/Laws/Flags.lean ====
section
/-! SUPPORT. STATUS after each flag computation, as a mask of the STATUS before (10_state.md R24). -/

namespace Sys2Proof.Machine

theorem statusAfterLookup_mask (cl : Bool) (s : State) :
    statusAfterLookup cl s = (s.status &&& 0xF0) ||| (if cl then 0x03 else 0x01) := by
  have h : ∀ (b : Byte) (c : Bool),
      packStatus true c false false (b.getLsbD 4) (b.extractLsb' 5 3) = (b &&& 0xF0) ||| (if c then 0x03 else 0x01) := by
    decide
  exact h s.status cl

theorem statusAfterScale_mask (tr : Bool) (s : State) :
    statusAfterScale tr s = (s.status &&& 0xF3) ||| (if tr then 0x0C else 0x04) := by
  have h : ∀ (b : Byte) (t : Bool),
      packStatus (b.getLsbD 0) (b.getLsbD 1) true t (b.getLsbD 4) (b.extractLsb' 5 3) =
        (b &&& 0xF3) ||| (if t then 0x0C else 0x04) := by
    decide
  exact h s.status tr

theorem statusAfterVerify_mask (s : State) : statusAfterVerify s = s.status ||| 0x10 := by
  have h : ∀ b : Byte,
      packStatus (b.getLsbD 0) (b.getLsbD 1) (b.getLsbD 2) (b.getLsbD 3) true (b.extractLsb' 5 3) = b ||| 0x10 := by
    decide
  exact h s.status

theorem statusAfterFault_mask (c : FaultCause) (s : State) :
    statusAfterFault c s = (s.status &&& 0x1F) ||| (c.code.zeroExtend 8 <<< 5) := by
  have h : ∀ (b : Byte) (k : BitVec 3),
      packStatus (b.getLsbD 0) (b.getLsbD 1) (b.getLsbD 2) (b.getLsbD 3) (b.getLsbD 4) k =
        (b &&& 0x1F) ||| (k.zeroExtend 8 <<< 5) := by
    decide
  exact h s.status c.code

/-- A recorded cause is never code 0 and never one of the codes 5 to 7 (R160). -/
theorem FaultCause.code_range (c : FaultCause) : 1 ≤ c.code.toNat ∧ c.code.toNat ≤ 4 := by
  cases c <;> decide

/-- Two causes never share a code (R160). -/
theorem FaultCause.code_injective (c d : FaultCause) (h : c.code = d.code) : c = d := by
  revert h; cases c <;> cases d <;> decide

theorem halted_iff_cause (s : State) : s.halted = true ↔ s.cause ≠ 0 := by simp [State.halted]

theorem not_halted_iff_cause (s : State) : s.halted = false ↔ s.cause = 0 := by simp [State.halted]

/-- TR of an exact product that fits 24 bits says whether it reaches 2^16 (R111). -/
theorem truncationLost_iff (p : Nat) (h : p < 2 ^ 24) : truncationLost p = true ↔ 2 ^ 16 ≤ p := by
  simp only [truncationLost, bne_iff_ne, ne_eq]
  omega

end Sys2Proof.Machine
end

