-- ==== Sys2Proof/Laws/Operands.lean ====
section
/-! SUPPORT. What the operand forms answer (40_lookup.md R91, R92; 42_scale.md R111). -/

namespace Sys2Proof.Machine

/-- A note index is below 62 (R7, R50). -/
theorem noteIndex_lt (i : NoteIndex) : i.val < 62 := i.isLt

theorem checkIndex_some {n : Byte} {i : NoteIndex} : checkIndex n = some i ↔ n.toNat = i.val := by
  have hi := noteIndex_lt i
  unfold checkIndex
  simp only [Config.tableSize]
  split
  · simp [Fin.ext_iff]
  · simp only [reduceCtorEq, false_iff]
    omega

theorem checkIndex_none {n : Byte} : checkIndex n = none ↔ 61 < n.toNat := by
  unfold checkIndex
  simp only [Config.tableSize]
  split
  · simp only [reduceCtorEq, false_iff]
    omega
  · simp only [true_iff]
    omega

/-- A note index is an operand in range. -/
theorem checkIndex_ofNat (i : NoteIndex) : checkIndex (BitVec.ofNat 8 i.val) = some i := by
  have hi := noteIndex_lt i
  rw [checkIndex_some, BitVec.toNat_ofNat]
  omega

theorem clampIndex_val (r : Int) :
    ((clampIndex r).val : Int) = if r < 0 then 0 else if 61 < r then 61 else r := by
  unfold clampIndex
  simp only [Config.tableSize, Config.noteMax]
  split <;> split_ifs <;> simp only [Nat.cast_ofNat] <;> omega

theorem wasClamped_iff (r : Int) : wasClamped r = true ↔ r < 0 ∨ 61 < r := by
  simp only [wasClamped, bne_iff_ne, ne_eq, clampIndex_val]
  split_ifs <;> omega

theorem rawIndex_range (e b : Byte) : -231 ≤ rawIndex e b ∧ rawIndex e b ≤ 279 := by
  have := e.isLt
  have := b.isLt
  simp only [rawIndex, Config.unityIndex]
  omega

/-- Every product fits PROD: nothing is lost (R111). -/
theorem product_lt (d : Byte) (m : Entry) : product d m < 2 ^ 24 := by
  have hd : d.toNat ≤ 255 := by have := d.isLt; omega
  have hm : m.toNat ≤ 65535 := by have := m.isLt; omega
  have := Nat.mul_le_mul hd hm
  unfold product
  omega

end Sys2Proof.Machine
end

