-- ==== Sys2Proof/Laws/Ops.lean ====
section
/-! SUPPORT. What looking for a table mismatch answers (41_generate.md R102). -/

namespace Sys2Proof.Machine

theorem firstMismatch_none (rom : Memory) : firstMismatch rom = none ↔ RomConforms rom := by
  simp [firstMismatch, RomConforms, List.find?_eq_none]

/-- The mismatch found is one, and every entry below it equals the formula. -/
theorem firstMismatch_some (rom : Memory) (n : NoteIndex) :
    firstMismatch rom = some n ↔
      tblRead rom n ≠ generatedEntry n.val ∧ ∀ k : NoteIndex, k < n → tblRead rom k = generatedEntry k.val := by
  have unique : ∀ m k : NoteIndex,
      (tblRead rom m ≠ generatedEntry m.val ∧ ∀ j : NoteIndex, j < m → tblRead rom j = generatedEntry j.val) →
      (tblRead rom k ≠ generatedEntry k.val ∧ ∀ j : NoteIndex, j < k → tblRead rom j = generatedEntry j.val) → m = k := by
    intro m k hm hk
    rcases lt_trichotomy m k with h | h | h
    · exact absurd (hk.2 m h) hm.1
    · exact h
    · exact absurd (hm.2 k h) hk.1
  have found : ∀ m, firstMismatch rom = some m →
      tblRead rom m ≠ generatedEntry m.val ∧ ∀ j : NoteIndex, j < m → tblRead rom j = generatedEntry j.val := by
    intro m h
    obtain ⟨hm, as, bs, heq, has⟩ := List.find?_eq_some_iff_append.1 h
    refine ⟨by simpa using hm, fun j hj => ?_⟩
    have sorted : (as ++ m :: bs).Pairwise (· < ·) := heq ▸ List.pairwise_lt_finRange _
    have mem : j ∈ as ++ m :: bs := heq ▸ List.mem_finRange j
    rcases List.mem_append.1 mem with h' | h'
    · simpa using has j h'
    · have tail := (List.pairwise_append.1 sorted).2.1
      rcases List.mem_cons.1 h' with rfl | h''
      · exact absurd hj (lt_irrefl _)
      · exact absurd hj (not_lt_of_gt (List.rel_of_pairwise_cons tail h''))
  refine ⟨found n, fun hn => ?_⟩
  rcases hf : firstMismatch rom with _ | m
  · exact absurd ((firstMismatch_none rom).1 hf n) hn.1
  · rw [unique m n (found m hf) hn]

end Sys2Proof.Machine
end

