-- ==== Sys2Proof/Laws/Exec.lean ====
section
/-! SUPPORT. What each command answers, one equation per case, and what any accepted command can do. -/

namespace Sys2Proof.Machine

/-- The write-back of a lookup with STATUS as a mask (R90). -/
theorem writeMult_eq (k : NoteIndex) (m : Entry) (cl : Bool) (s : State) :
    writeMult k m cl s =
      { s with idx := BitVec.ofNat 6 k.val, mult := m, prod := 0, status := (s.status &&& 0xF0) ||| (if cl then 0x03 else 0x01) } := by
  simp only [writeMult, statusAfterLookup_mask]

/-- A fault's record with STATUS as a mask (R163). -/
theorem raise_eq (c : FaultCause) (info : Word) (s : State) :
    raise c info s = { s with status := (s.status &&& 0x1F) ||| (c.code.zeroExtend 8 <<< 5), finfo := info } := by
  simp only [raise, statusAfterFault_mask]

/-- The write of a product with STATUS as a mask (R111). -/
theorem writeProd_eq (d : Byte) (m : Entry) (s : State) :
    writeProd (product d m) s =
      { s with prod := BitVec.ofNat 24 (product d m), status := (s.status &&& 0xF3) ||| (if 2 ^ 16 ≤ product d m then 0x0C else 0x04) } := by
  simp only [writeProd, statusAfterScale_mask, truncationLost_iff _ (product_lt d m)]

/-- Narrowing an exact product to PROD loses nothing (R111). -/
theorem product_exact (d : Byte) (m : Entry) : (BitVec.ofNat 24 (product d m)).toNat = product d m := by
  rw [BitVec.toNat_ofNat]
  exact Nat.mod_eq_of_lt (product_lt d m)

/-- FINFO of a TableMismatch is 0x040000 with the index in bits 15:8 (R160). -/
theorem mismatchInfo_eq (n : NoteIndex) : mismatchInfo n = BitVec.ofNat 24 (0x040000 + n.val * 256) := by
  revert n
  decide

theorem exec_nop (s : State) : exec .nop s = .next s := rfl

theorem exec_lookup_inRange {n : Byte} {k : NoteIndex} (h : n.toNat = k.val) (s : State) :
    exec (.lookup n) s = .next (writeMult k (tblRead s.rom k) false s) := by
  simp only [exec, execLookup, checkIndex_some.2 h]

theorem exec_lookup_outOfRange {n : Byte} (h : 61 < n.toNat) (s : State) :
    exec (.lookup n) s = .next (raise .indexOutOfRange (encode (.lookup n)) s) := by
  simp only [exec, execLookup, checkIndex_none.2 h]

theorem exec_lookuprel (e b : Byte) (s : State) :
    exec (.lookuprel e b) s =
      .next (writeMult (clampIndex (rawIndex e b)) (tblRead s.rom (clampIndex (rawIndex e b))) (wasClamped (rawIndex e b)) s) :=
  rfl

theorem exec_gen_inRange {n : Byte} {k : NoteIndex} (h : n.toNat = k.val) (s : State) :
    exec (.gen n) s = .next (writeMult k (generatedEntry k.val) false s) := by
  simp only [exec, execGen, checkIndex_some.2 h]

theorem exec_gen_outOfRange {n : Byte} (h : 61 < n.toNat) (s : State) :
    exec (.gen n) s = .next (raise .indexOutOfRange (encode (.gen n)) s) := by
  simp only [exec, execGen, checkIndex_none.2 h]

theorem exec_verify_conforming {s : State} (h : RomConforms s.rom) : exec .verify s = .next (setVerified s) := by
  simp only [exec, execVerify, (firstMismatch_none s.rom).2 h]

theorem exec_verify_mismatch {s : State} {n : NoteIndex} (h : firstMismatch s.rom = some n) :
    exec .verify s = .next (raise .tableMismatch (mismatchInfo n) s) := by
  simp only [exec, execVerify, h]

theorem exec_scale_valid {s : State} (h : s.mv = true) (d : Byte) :
    exec (.scale d) s = .next (writeProd (product d s.mult) s) := by
  simp only [exec, execScale, h, if_true]

theorem exec_scale_invalid {s : State} (h : s.mv = false) (d : Byte) :
    exec (.scale d) s = .next (raise .multiplierNotValid (encode (.scale d)) s) := by
  simp [exec, execScale, h]

/-- The index of a clamped lookup is an end of the table (R92). -/
theorem clampIndex_atEnd {r : Int} (h : wasClamped r = true) : (clampIndex r).val = 0 ∨ (clampIndex r).val = 61 := by
  have hv := clampIndex_val r
  rcases (wasClamped_iff r).1 h with h | h
  · rw [if_pos h] at hv
    omega
  · rw [if_neg (by omega), if_pos h] at hv
    omega

/-- The word of a command other than NOP is not 0 (R36 (h)). -/
theorem encode_ne_zero {i : Instr} (h : i ≠ .nop) : encode i ≠ 0 := by
  intro e
  have hop : opField (encode i) = 0 := by rw [e]; decide
  cases i <;> simp [encode] at hop h

theorem mismatchInfo_ne_zero (n : NoteIndex) : mismatchInfo n ≠ 0 := by
  revert n
  decide

/-- Everything an accepted command can do: it always answers a next state, and that state is the old one, or the old one
with a multiplier, a product, VF or a fault written. -/
theorem exec_effect (i : Instr) (s : State) :
    ∃ t, exec i s = .next t ∧
      (t = s ∨
       (∃ k m cl, t = writeMult k m cl s ∧ (m = tblRead s.rom k ∨ m = generatedEntry k.val) ∧
          (cl = true → k.val = 0 ∨ k.val = 61)) ∨
       (∃ d, s.mv = true ∧ t = writeProd (product d s.mult) s) ∨
       (RomConforms s.rom ∧ t = setVerified s) ∨
       (∃ c info, info ≠ 0 ∧ t = raise c info s)) := by
  cases i with
  | nop => exact ⟨s, exec_nop s, .inl rfl⟩
  | lookup n =>
    rcases h : checkIndex n with _ | k
    · exact ⟨_, exec_lookup_outOfRange (checkIndex_none.1 h) s,
        .inr (.inr (.inr (.inr ⟨_, _, encode_ne_zero (by simp), rfl⟩)))⟩
    · exact ⟨_, exec_lookup_inRange (checkIndex_some.1 h) s, .inr (.inl ⟨_, _, _, rfl, .inl rfl, by simp⟩)⟩
  | lookuprel e b => exact ⟨_, exec_lookuprel e b s, .inr (.inl ⟨_, _, _, rfl, .inl rfl, clampIndex_atEnd⟩)⟩
  | gen n =>
    rcases h : checkIndex n with _ | k
    · exact ⟨_, exec_gen_outOfRange (checkIndex_none.1 h) s,
        .inr (.inr (.inr (.inr ⟨_, _, encode_ne_zero (by simp), rfl⟩)))⟩
    · exact ⟨_, exec_gen_inRange (checkIndex_some.1 h) s, .inr (.inl ⟨_, _, _, rfl, .inr rfl, by simp⟩)⟩
  | verify =>
    rcases h : firstMismatch s.rom with _ | n
    · exact ⟨_, exec_verify_conforming ((firstMismatch_none _).1 h),
        .inr (.inr (.inr (.inl ⟨(firstMismatch_none _).1 h, rfl⟩)))⟩
    · exact ⟨_, exec_verify_mismatch h, .inr (.inr (.inr (.inr ⟨_, _, mismatchInfo_ne_zero n, rfl⟩)))⟩
  | scale d =>
    rcases h : s.mv
    · exact ⟨_, exec_scale_invalid h d, .inr (.inr (.inr (.inr ⟨_, _, encode_ne_zero (by simp), rfl⟩)))⟩
    · exact ⟨_, exec_scale_valid h d, .inr (.inr (.inl ⟨d, rfl, rfl⟩))⟩

end Sys2Proof.Machine
end

