-- ==== Sys2Proof/Laws/Step.lean ====
section
/-! SUPPORT. What a step answers, one equation per action of the environment. -/

namespace Sys2Proof.Machine

theorem step_noInput {s : State} (h : s.inputs = []) (hh : s.halted = false) : step s = .next s := by
  simp [step, h, noMoreInput, hh]

theorem step_noInput_halted {s : State} (h : s.inputs = []) (hh : s.halted = true) : step s = .fault (haltedFault s) := by
  simp [step, h, noMoreInput, hh]

theorem step_command {s : State} {w : Word} {rest : List HostInput} (h : s.inputs = .command w :: rest)
    (hh : s.halted = false) : step s = execWord w (acceptCommand rest s) := by
  simp [step, h, takeAction, present, hh]

theorem step_command_halted {s : State} {w : Word} {rest : List HostInput} (h : s.inputs = .command w :: rest)
    (hh : s.halted = true) : step s = .fault (haltedFault s) := by
  simp [step, h, takeAction, present, hh]

theorem step_resetInput {s : State} {p : Option Word} {rest : List HostInput} (h : s.inputs = .reset p :: rest) :
    step s = .next (resetBlock (takeInput rest s)) := by
  simp [step, h, takeAction]

theorem step_chipWrite {s : State} {r : ChipReg} {v : Byte} {rest : List HostInput}
    (h : s.inputs = .chipWrite r v :: rest) : step s = .next (hostChipWrite r v (takeInput rest s)) := by
  simp [step, h, takeAction]

theorem step_idle {s : State} {rest : List HostInput} (h : s.inputs = .idle :: rest) :
    step s = .next (takeInput rest s) := by
  simp [step, h, takeAction]

theorem execWord_ok {w : Word} {i : Instr} (h : decode w = .ok i) (s : State) : execWord w s = exec i s := by
  simp [execWord, h]

theorem execWord_error {w : Word} {e : DecodeError} (h : decode w = .error e) (s : State) :
    execWord w s = .next (raise .illegalCommand w s) := by
  simp [execWord, h]

/-- A step that takes a command ran on a block that was not halted, and either executed what the word decodes to or raised
IllegalCommand. -/
theorem step_command_next {s t : State} {w : Word} {rest : List HostInput} (hi : s.inputs = .command w :: rest)
    (h : step s = .next t) :
    s.halted = false ∧
      ((∃ i, decode w = .ok i ∧ exec i (acceptCommand rest s) = .next t) ∨
       (∃ e, decode w = .error e ∧ t = raise .illegalCommand w (acceptCommand rest s))) := by
  rcases hh : s.halted
  · rw [step_command hi hh] at h
    rcases hd : decode w with e | i
    · rw [execWord_error hd] at h
      cases h
      exact ⟨rfl, .inr ⟨e, rfl, rfl⟩⟩
    · rw [execWord_ok hd] at h
      exact ⟨rfl, .inl ⟨i, rfl, h⟩⟩
  · rw [step_command_halted hi hh] at h
    cases h

end Sys2Proof.Machine
end

