-- ==== Sys2Proof/Laws/Run.lean ====
section
/-! SUPPORT. Runs of the machine behind the host's interface, unfolded one step at a time, and what a run keeps when every
step keeps it. -/

namespace Sys2Proof.Machine

theorem run_zero (s : State) : Host.Core.run core 0 s = .next s := rfl

theorem run_succ_next {s t : State} (h : step s = .next t) (k : Nat) :
    Host.Core.run core (k + 1) s = Host.Core.run core k t := by
  have h' : Host.Core.step core s = .next t := h
  simp only [Host.Core.run, h']

theorem run_succ_fault {s : State} {f : Fault} (h : step s = .fault f) (k : Nat) :
    Host.Core.run core (k + 1) s = .fault f := by
  have h' : Host.Core.step core s = .fault f := h
  simp only [Host.Core.run, h']

theorem run_succ_refused {s : State} {r : Refusal} (h : step s = .refused r) (k : Nat) :
    Host.Core.run core (k + 1) s = .refused r := by
  have h' : Host.Core.step core s = .refused r := h
  simp only [Host.Core.run, h']

/-- A run of `m + n` steps is a run of `m` and then one of `n`. -/
theorem run_add (m n : Nat) (s t : State) (h : Host.Core.run core m s = .next t) :
    Host.Core.run core (m + n) s = Host.Core.run core n t := by
  induction m generalizing s with
  | zero =>
    cases h
    rw [Nat.zero_add]
  | succ m ih =>
    rw [Nat.add_right_comm]
    rcases hs : step s with u | f | r
    · rw [run_succ_next hs] at h ⊢
      exact ih u h
    · rw [run_succ_fault hs] at h
      cases h
    · rw [run_succ_refused hs] at h
      cases h

/-- What every step keeps, every run keeps. -/
theorem run_keeps (P : State → Prop) (keep : ∀ s t, P s → step s = .next t → P t) (k : Nat) (s t : State) (hs : P s)
    (h : Host.Core.run core k s = .next t) : P t := by
  induction k generalizing s with
  | zero => cases h; exact hs
  | succ k ih =>
    rcases hst : step s with u | f | r
    · rw [run_succ_next hst] at h
      exact ih u (keep s u hs hst) h
    · rw [run_succ_fault hst] at h
      cases h
    · rw [run_succ_refused hst] at h
      cases h

end Sys2Proof.Machine
end

