-- ==== Sys2Proof/Laws/Chip.lean ====
section
/-! SUPPORT. The sound chip's registers under writes (48_env_chip_initializer.md R130 to R138). -/

namespace Sys2Proof.Machine

theorem PerVoice.get_set_same (p : PerVoice) (v : Voice) (b : Byte) : (p.set v b).get v = b := by
  cases v <;> rfl

theorem PerVoice.get_set_other (p : PerVoice) (v u : Voice) (b : Byte) (h : u ≠ v) : (p.set v b).get u = p.get u := by
  cases v <;> cases u <;> first | rfl | exact absurd rfl h

theorem PerVoice.ext_get {p q : PerVoice} (h : ∀ v, p.get v = q.get v) : p = q := by
  cases p
  cases q
  have h1 := h .v1
  have h2 := h .v2
  have h3 := h .v3
  have h4 := h .v4
  simp_all [PerVoice.get]

/-- Writing a list of voices leaves the value in each of them and the others alone. -/
theorem PerVoice.get_foldl_set (vs : List Voice) (b : Byte) (p : PerVoice) (v : Voice) :
    (vs.foldl (fun r x => r.set x b) p).get v = if v ∈ vs then b else p.get v := by
  induction vs generalizing p with
  | nil => simp
  | cons x vs ih =>
    rw [List.foldl_cons, ih]
    by_cases h : v ∈ vs
    · simp [h]
    · by_cases hx : v = x
      · subst hx
        simp [h, PerVoice.get_set_same]
      · simp [h, hx, PerVoice.get_set_other p x v b hx]

theorem ChipRegs.get_set_same (c : ChipRegs) (r : ChipReg) (v : Byte) : (c.set r v).get r = v := by
  cases r with
  | voiceControl x => exact PerVoice.get_set_same c.voiceControl x v
  | frequencyDivisor x => exact PerVoice.get_set_same c.frequencyDivisor x v
  | _ => rfl

theorem Chip.writeAll_regs (c : Chip) (ws : List ChipWrite) :
    (c.writeAll ws).regs = ws.foldl (fun r w => r.set w.reg w.value) c.regs := by
  unfold Chip.writeAll
  induction ws generalizing c with
  | nil => rfl
  | cons w ws ih =>
    rw [List.foldl_cons, ih]
    rfl

theorem Chip.writeAll_append (c : Chip) (ws vs : List ChipWrite) :
    c.writeAll (ws ++ vs) = (c.writeAll ws).writeAll vs := List.foldl_append ..

/-- The host's chip writes, run as steps, do just that. -/
theorem run_chipWrites (ws : List ChipWrite) (s : State) (rest : List HostInput)
    (h : s.inputs = ws.map ChipWrite.toInput ++ rest) :
    Host.Core.run core ws.length s = .next { s with inputs := rest, chip := s.chip.writeAll ws } := by
  induction ws generalizing s with
  | nil =>
    simp only [List.map_nil, List.nil_append] at h
    subst h
    rfl
  | cons w ws ih =>
    have hi : s.inputs = .chipWrite w.reg w.value :: (ws.map ChipWrite.toInput ++ rest) := by rw [h]; rfl
    rw [List.length_cons, run_succ_next (step_chipWrite hi), ih _ rfl]
    rfl

/-- Idle moments, run as steps, change nothing. -/
theorem run_idles (n : Nat) (s : State) (rest : List HostInput) (h : s.inputs = List.replicate n .idle ++ rest) :
    Host.Core.run core n s = .next { s with inputs := rest } := by
  induction n generalizing s with
  | zero =>
    simp only [List.replicate_zero, List.nil_append] at h
    subst h
    rfl
  | succ n ih =>
    have hi : s.inputs = .idle :: (List.replicate n .idle ++ rest) := by rw [h]; rfl
    rw [run_succ_next (step_idle hi), ih _ rfl]
    rfl

end Sys2Proof.Machine
end

