-- ==== Sys2Proof/Laws/Generator.lean ====
section
/-! SUPPORT. The integer twelfth root is the one R54 asks for. -/

namespace Sys2Proof.Machine

theorem iroot12From_spec (t k r : Nat) (hlo : r ^ 12 ≤ t) (hhi : t < (r + 2 ^ k) ^ 12) :
    iroot12From t k r ^ 12 ≤ t ∧ t < (iroot12From t k r + 1) ^ 12 := by
  induction k generalizing r with
  | zero => exact ⟨hlo, by simpa [iroot12From] using hhi⟩
  | succ k ih =>
    unfold iroot12From
    split
    · rename_i h
      refine ih _ h ?_
      have e : r + 2 ^ (k + 1) = r + 2 ^ k + 2 ^ k := by rw [pow_succ]; omega
      rwa [e] at hhi
    · rename_i h
      exact ih _ hlo (Nat.lt_of_not_le h)

/-- `iroot12 t` is the greatest integer whose twelfth power is at most `t` (R54). -/
theorem iroot12_spec (t : Nat) : iroot12 t ^ 12 ≤ t ∧ t < (iroot12 t + 1) ^ 12 := by
  refine iroot12From_spec t _ 0 (by simp) ?_
  have h1 : t < 2 ^ (t.log2 + 1) := Nat.lt_log2_self
  refine lt_of_lt_of_le h1 ?_
  rw [Nat.zero_add, ← pow_mul]
  refine Nat.pow_le_pow_right (by norm_num) ?_
  simp only [Config.stepsPerOctave]
  omega

theorem generatorExponent_eq (n : Nat) : generatorExponent n = n + 84 := rfl

end Sys2Proof.Machine
end

