-- ==== Sys2Proof/Laws/Memory.lean ====
section
/-! SUPPORT. The table's memory: every memory operation keeps the canonical form, and the read-after-write laws
(20_memory.md R50 to R59). Reading changes no memory, and no command writes it; `Memory.setByte` and `Memory.setEntry`
describe another ROM (R104). -/

namespace Sys2Proof.Machine

theorem reset_rom_wf : Memory.wf State.reset.rom = true := rfl

theorem Memory.wf_cons (a : Nat) (v : Byte) (rest : Memory) :
    Memory.wf ((a, v) :: rest) = true ↔
      a < romBytes ∧ v ≠ builtByte a ∧ (∀ c ∈ rest, a < c.1) ∧ Memory.wf rest = true := by
  simp only [Memory.wf, Bool.and_eq_true, decide_eq_true_eq, bne_iff_ne, ne_eq, List.all_eq_true]
  tauto

/-- A byte set adds no address but its own. -/
theorem Memory.mem_setByte {m : Memory} {a : Fin romBytes} {v : Byte} {c : Host.Cell}
    (h : c ∈ Memory.setByte m a v) : c.1 = a.val ∨ c ∈ m := by
  induction m with
  | nil => unfold Memory.setByte at h; split at h <;> simp_all
  | cons d rest ih =>
    unfold Memory.setByte at h
    split at h
    · split at h
      · exact .inr h
      · rcases List.mem_cons.1 h with rfl | h
        · exact .inl rfl
        · exact .inr h
    · split at h
      · split at h
        · exact .inr (List.mem_cons_of_mem _ h)
        · rcases List.mem_cons.1 h with rfl | h
          · exact .inl rfl
          · exact .inr (List.mem_cons_of_mem _ h)
      · simp only [List.mem_cons] at h ⊢
        tauto

theorem Memory.wf_setByte {m : Memory} (a : Fin romBytes) (v : Byte) (h : Memory.wf m = true) :
    Memory.wf (Memory.setByte m a v) = true := by
  induction m with
  | nil =>
    unfold Memory.setByte
    split
    · rfl
    · rename_i hv
      exact (Memory.wf_cons ..).2 ⟨a.isLt, hv, by simp, rfl⟩
  | cons d rest ih =>
    obtain ⟨hd, hb, hr, hw⟩ := (Memory.wf_cons d.1 d.2 rest).1 h
    unfold Memory.setByte
    split
    · rename_i hlt
      split
      · exact h
      · rename_i hv
        refine (Memory.wf_cons ..).2 ⟨a.isLt, hv, ?_, h⟩
        intro c hc
        rcases List.mem_cons.1 hc with rfl | hc
        · exact hlt
        · exact lt_trans hlt (hr c hc)
    · split
      · rename_i heq
        split
        · exact hw
        · rename_i hv
          exact (Memory.wf_cons ..).2 ⟨a.isLt, hv, fun c hc => heq ▸ hr c hc, hw⟩
      · refine (Memory.wf_cons d.1 d.2 _).2 ⟨hd, hb, ?_, ih hw⟩
        intro c hc
        rcases Memory.mem_setByte hc with e | e
        · omega
        · exact hr c e

theorem Memory.wf_setEntry {m : Memory} (n : NoteIndex) (v : Entry) (h : Memory.wf m = true) :
    Memory.wf (Memory.setEntry m n v) = true :=
  Memory.wf_setByte _ _ (Memory.wf_setByte _ _ h)

/-- An address below every listed one is unlisted. -/
theorem Memory.readByte_unlisted {m : Memory} {a : Fin romBytes} (h : ∀ c ∈ m, a.val < c.1) :
    Memory.readByte m a = builtByte a.val := by
  have : m.find? (fun c => c.1 == a.val) = none := by
    rw [List.find?_eq_none]
    intro c hc
    have := h c hc
    simp
    omega
  simp [Memory.readByte, this]

theorem Memory.readByte_cons_same {c : Host.Cell} {rest : Memory} {a : Fin romBytes} (h : c.1 = a.val) :
    Memory.readByte (c :: rest) a = c.2 := by
  simp [Memory.readByte, h]

theorem Memory.readByte_cons_other {c : Host.Cell} {rest : Memory} {a : Fin romBytes} (h : c.1 ≠ a.val) :
    Memory.readByte (c :: rest) a = Memory.readByte rest a := by
  simp [Memory.readByte, h]

/-- The byte set reads back. -/
theorem Memory.readByte_setByte_same {m : Memory} (a : Fin romBytes) (v : Byte) (h : Memory.wf m = true) :
    Memory.readByte (Memory.setByte m a v) a = v := by
  induction m with
  | nil =>
    unfold Memory.setByte
    split
    · rename_i hv
      rw [Memory.readByte_unlisted (by simp), hv]
    · exact Memory.readByte_cons_same rfl
  | cons d rest ih =>
    obtain ⟨hd, hb, hr, hw⟩ := (Memory.wf_cons d.1 d.2 rest).1 h
    unfold Memory.setByte
    split
    · rename_i hlt
      split
      · rename_i hv
        rw [hv]
        refine Memory.readByte_unlisted fun c hc => ?_
        rcases List.mem_cons.1 hc with rfl | hc
        · exact hlt
        · exact lt_trans hlt (hr c hc)
      · exact Memory.readByte_cons_same rfl
    · split
      · rename_i heq
        split
        · rename_i hv
          rw [hv]
          exact Memory.readByte_unlisted fun c hc => heq ▸ hr c hc
        · exact Memory.readByte_cons_same rfl
      · rename_i hne
        rw [Memory.readByte_cons_other (Ne.symm hne)]
        exact ih hw

/-- Every other byte reads as before. -/
theorem Memory.readByte_setByte_other {m : Memory} (a b : Fin romBytes) (v : Byte) (hab : a ≠ b) :
    Memory.readByte (Memory.setByte m a v) b = Memory.readByte m b := by
  have hab' : a.val ≠ b.val := fun e => hab (Fin.ext e)
  induction m with
  | nil =>
    unfold Memory.setByte
    split
    · rfl
    · exact Memory.readByte_cons_other hab'
  | cons d rest ih =>
    unfold Memory.setByte
    split
    · split
      · rfl
      · exact Memory.readByte_cons_other hab'
    · split
      · rename_i heq
        rw [Memory.readByte_cons_other (c := d) (by omega)]
        split
        · rfl
        · exact Memory.readByte_cons_other hab'
      · by_cases hdb : d.1 = b.val
        · rw [Memory.readByte_cons_same hdb, Memory.readByte_cons_same hdb]
        · rw [Memory.readByte_cons_other hdb, Memory.readByte_cons_other hdb, ih]

theorem fractionAddr_ne_integerAddr (n k : NoteIndex) : fractionAddr n ≠ integerAddr k := by
  intro h
  have := congrArg Fin.val h
  simp only [fractionAddr, integerAddr] at this
  omega

/-- The two bytes of an entry make the entry (R57). -/
theorem entry_bytes (v : Entry) : (v.extractLsb' 8 8 ++ v.extractLsb' 0 8 : Entry) = v := by
  apply BitVec.eq_of_getLsbD_eq
  intro i hi
  simp only [BitVec.getLsbD_append, BitVec.getLsbD_extractLsb']
  split_ifs with h
  · simp [h]
  · rw [decide_eq_true (by omega), Bool.true_and]
    congr 1
    omega

/-- An entry set reads back. -/
theorem tblRead_setEntry_same {m : Memory} (n : NoteIndex) (v : Entry) (h : Memory.wf m = true) :
    tblRead (Memory.setEntry m n v) n = v := by
  unfold tblRead Memory.setEntry
  rw [Memory.readByte_setByte_same _ _ (Memory.wf_setByte _ _ h),
    Memory.readByte_setByte_other _ _ _ (Ne.symm (fractionAddr_ne_integerAddr n n)),
    Memory.readByte_setByte_same _ _ h, entry_bytes]

/-- Every other entry reads as before. -/
theorem tblRead_setEntry_other {m : Memory} (n k : NoteIndex) (v : Entry) (h : n ≠ k) :
    tblRead (Memory.setEntry m n v) k = tblRead m k := by
  have hi : integerAddr n ≠ integerAddr k := fun e => h (Fin.ext (by
    have := congrArg Fin.val e
    simp only [integerAddr] at this
    omega))
  have hf : fractionAddr n ≠ fractionAddr k := fun e => h (Fin.ext (by
    have := congrArg Fin.val e
    simp only [fractionAddr] at this
    omega))
  unfold tblRead Memory.setEntry
  rw [Memory.readByte_setByte_other _ _ _ hi, Memory.readByte_setByte_other _ _ _ (fractionAddr_ne_integerAddr n k),
    Memory.readByte_setByte_other _ _ _ (Ne.symm (fractionAddr_ne_integerAddr k n)),
    Memory.readByte_setByte_other _ _ _ hf]

end Sys2Proof.Machine
end

