-- ==== Sys2Proof/Laws/PerInstr.lean ====
section
/-! SUPPORT. For every command: its word is a word of its own row of the opcode map (30_encoding.md R74) and of no other
opcode's. -/

namespace Sys2Proof.Laws

/-- The word of the command matches the command's row (R74), and its opcode field is the row's. -/
def EncodesInRow.Statement (i : Instr) : Prop :=
  i.row.accepts (encode i) = true ∧ opField (encode i) = opField i.row.pattern

theorem EncodesInRow.nop : EncodesInRow.Statement .nop := by unfold EncodesInRow.Statement; decide

theorem EncodesInRow.lookup (n : Byte) : EncodesInRow.Statement (.lookup n) := by
  revert n; unfold EncodesInRow.Statement; decide

/-- The mask of `LOOKUPREL` keeps the opcode field only. -/
theorem and_opMask (op a b : Byte) : joinFields op a b &&& 0xFF0000 = joinFields op 0 0 := by
  rw [← joinFields_fields (joinFields op a b &&& 0xFF0000)]
  have h (w : Word) : opField (w &&& 0xFF0000) = opField w ∧ aField (w &&& 0xFF0000) = 0 ∧ bField (w &&& 0xFF0000) = 0 := by
    simp only [opField, aField, bField, BitVec.extractLsb'_and]
    exact ⟨BitVec.and_allOnes, BitVec.and_zero, BitVec.and_zero⟩
  rw [(h _).1, (h _).2.1, (h _).2.2, opField_joinFields]

theorem EncodesInRow.lookuprel (e b : Byte) : EncodesInRow.Statement (.lookuprel e b) := by
  constructor
  · have := and_opMask 0x02 e b
    simp only [OpcodeRow.accepts, Instr.row, encode, beq_iff_eq]
    rw [this]
    decide
  · simp only [Instr.row, encode, opField_joinFields]
    decide

theorem EncodesInRow.gen (n : Byte) : EncodesInRow.Statement (.gen n) := by
  revert n; unfold EncodesInRow.Statement; decide

theorem EncodesInRow.verify : EncodesInRow.Statement .verify := by unfold EncodesInRow.Statement; decide

theorem EncodesInRow.scale (d : Byte) : EncodesInRow.Statement (.scale d) := by
  revert d; unfold EncodesInRow.Statement; decide

end Sys2Proof.Laws
end

