-- ==== Sys2Proof/Laws/Start.lean ====
section
/-! SUPPORT. The fields of the state a run starts from (10_state.md R34). -/

namespace Sys2Proof
open Machine

variable (rom : Memory) (chip : Chip) (inputs : List HostInput)

@[simp] theorem startState_idx : (startState rom chip inputs).idx = 0 := rfl
@[simp] theorem startState_mult : (startState rom chip inputs).mult = 0 := rfl
@[simp] theorem startState_prod : (startState rom chip inputs).prod = 0 := rfl
@[simp] theorem startState_status : (startState rom chip inputs).status = 0 := rfl
@[simp] theorem startState_finfo : (startState rom chip inputs).finfo = 0 := rfl
@[simp] theorem startState_rom : (startState rom chip inputs).rom = rom := rfl
@[simp] theorem startState_chip : (startState rom chip inputs).chip = chip := rfl
@[simp] theorem startState_inputs : (startState rom chip inputs).inputs = inputs := rfl
@[simp] theorem startState_pos : (startState rom chip inputs).pos = 0 := rfl
@[simp] theorem startState_mv : (startState rom chip inputs).mv = false := by simp [State.mv]
@[simp] theorem startState_cl : (startState rom chip inputs).cl = false := by simp [State.cl]
@[simp] theorem startState_pv : (startState rom chip inputs).pv = false := by simp [State.pv]
@[simp] theorem startState_tr : (startState rom chip inputs).tr = false := by simp [State.tr]
@[simp] theorem startState_vf : (startState rom chip inputs).vf = false := by simp [State.vf]
@[simp] theorem startState_cause : (startState rom chip inputs).cause = 0 := by simp [State.cause]
@[simp] theorem startState_halted : (startState rom chip inputs).halted = false := by simp [State.halted]

end Sys2Proof
end

