-- ==== Sys2Proof/Tests/Slice0.lean ====
section
/-! SUPPORT. Tests: expected results are hand-copied from the spec (95_test_vectors.md unless a comment says otherwise). The
`test_witness_` theorems show, for each statement of Certificates/Slice0/Obligations.lean that has hypotheses, states and
operands that meet them. -/

namespace Sys2Proof.Tests

open Sys2Proof Sys2Proof.Machine

/-- The five registers after an outcome that is a next state, as the spec writes a state: (IDX, MULT, PROD, STATUS, FINFO). -/
def regsAfter : Host.Outcome State Fault Refusal → Option (BitVec 6 × Entry × Word × Byte × Word)
  | .next s => some (s.idx, s.mult, s.prod, s.status, s.finfo)
  | .fault _ => none
  | .refused _ => none

/-- A state of the block over the conforming table. -/
def block (idx : BitVec 6) (mult : Entry) (prod : Word) (status : Byte) (finfo : Word) : State :=
  { State.reset with idx := idx, mult := mult, prod := prod, status := status, finfo := finfo }

/-- The registers after presenting one word. -/
def afterWord (w : Nat) (s : State) := regsAfter (step (s.withFetchWord 24 w))

/-- The conforming table but with entry 6 truncated and not rounded (VF4). -/
def badTable : Memory := Memory.setEntry [] 6 0x005A

/-! Words written out bit by bit from the patterns of 30_encoding.md R74. -/

theorem test_decode_nop : decode 0b000000000000000000000000 = .ok .nop := by decide
theorem test_decode_lookup : decode 0b000000010001100000000000 = .ok (.lookup 24) := by decide
theorem test_decode_lookuprel : decode 0b000000100011000000011000 = .ok (.lookuprel 48 24) := by decide
theorem test_decode_gen : decode 0b000000110010010000000000 = .ok (.gen 36) := by decide
theorem test_decode_verify : decode 0b000001000000000000000000 = .ok .verify := by decide
theorem test_decode_scale : decode 0b000001010100000000000000 = .ok (.scale 0x40) := by decide
theorem test_decodeBytes_p2 : decodeBytes [0x02, 0x30, 0x18, 0x05] = .ok (.lookuprel 48 24, [0x05]) := by decide
theorem test_decodeBytes_truncated : decodeBytes [0x02, 0x30] = .error .truncated := by decide
theorem test_decodeTableWord_scale : decodeTableWord 24 0x055000 = some (.scale 0x50) := by decide

/-! Ill-formed words and parameters, which WellFormed.lean refuses: an unassigned opcode, and each must-be-zero field. -/

theorem test_illFormed_opcode : wordWellFormed 0x060000 = false := by decide
theorem test_illFormed_nop_a : wordWellFormed 0x000100 = false := by decide
theorem test_illFormed_lookup_b : wordWellFormed 0x0100FF = false := by decide
theorem test_illFormed_gen_b : wordWellFormed 0x030001 = false := by decide
theorem test_illFormed_verify_a : wordWellFormed 0x040100 = false := by decide
theorem test_illFormed_scale_b : wordWellFormed 0x050001 = false := by decide
theorem test_wellFormed_word : wordWellFormed 0x02FFFF = true := by decide

/-- Parameters of R153: the usual values the table there names. -/
def params : InitParams :=
  { voiceSilent := 0x10, skctlNormal := 0x03, audf1Val := 0x28, audctlVal := 0x00, irqMask := 0x40, auxInit := 0x00 }

theorem test_wellFormed_params : params.wellFormed = true := by decide
theorem test_illFormed_voice_zero : ({ params with voiceSilent := 0x00 } : InitParams).wellFormed = false := by decide
theorem test_illFormed_voice_volume : ({ params with voiceSilent := 0x1F } : InitParams).wellFormed = false := by decide
theorem test_illFormed_skctl : ({ params with skctlNormal := 0x00 } : InitParams).wellFormed = false := by decide
theorem test_illFormed_voiceOrder : ({ params with voiceOrder := [.v1, .v1, .v3, .v4] } : InitParams).wellFormed = false := by
  decide
theorem test_illFormed_divisorOrder : ({ params with divisorOrder := [.v1, .v2, .v3] } : InitParams).wellFormed = false := by
  decide

/-! The commands, two vectors each. -/

/-- 43_system.md R120: NOP clears no flag; the state is P3's before its last word. -/
theorem test_nop : afterWord 0x000000 (block 0 0x0040 0x003FC0 0x17 0) = some (0, 0x0040, 0x003FC0, 0x17, 0) := by decide
/-- NP2. -/
theorem test_nop_illegal : afterWord 0x000100 State.reset = some (0, 0, 0, 0x20, 0x000100) := by decide
/-- LK14. -/
theorem test_lookup_clearsProduct : afterWord 0x010C00 (block 24 0x0100 0x004000 0x05 0) = some (12, 0x0080, 0, 0x01, 0) := by
  decide
/-- LK13. -/
theorem test_lookup_outOfRange : afterWord 0x013E00 (block 61 0x087A 0 0x01 0) = some (61, 0x087A, 0, 0x41, 0x013E00) := by
  decide
/-- LR12: no 8-bit wrap. -/
theorem test_lookuprel_clampLow : afterWord 0x0200C8 State.reset = some (0, 0x0040, 0, 0x03, 0) := by decide
/-- LR10. -/
theorem test_lookuprel_top : afterWord 0x022500 State.reset = some (61, 0x087A, 0, 0x01, 0) := by decide
/-- GN1. -/
theorem test_gen_rounds : afterWord 0x030600 State.reset = some (6, 0x005B, 0, 0x01, 0) := by decide
/-- VF4: GEN reads no table. -/
theorem test_gen_badTable : afterWord 0x030600 { State.reset with rom := badTable } = some (6, 0x005B, 0, 0x01, 0) := by
  decide
/-- VF5. -/
theorem test_verify : afterWord 0x040000 (block 12 0x0080 0x007F80 0x05 0) = some (12, 0x0080, 0x007F80, 0x15, 0) := by decide
/-- VF4, the last word. -/
theorem test_verify_badTable :
    afterWord 0x040000 { block 6 0x005B 0 0x01 0 with rom := badTable } = some (6, 0x005B, 0, 0x81, 0x040600) := by decide
/-- SC15. -/
theorem test_scale : afterWord 0x051F00 (block 61 0x087A 0 0x01 0) = some (61, 0x087A, 0x0106C6, 0x0D, 0) := by decide
/-- SC25. -/
theorem test_scale_invalid : afterWord 0x051000 (block 0 0 0 0x10 0) = some (0, 0, 0, 0x70, 0x051000) := by decide

/-! Priority, halt, reset, the second error of VF4, the generator, the table's bytes. -/

/-- LK12. -/
theorem test_priority : afterWord 0x014001 State.reset = some (0, 0, 0, 0x20, 0x014001) := by decide
/-- HL1: the second word is never accepted. -/
theorem test_halted : afterWord 0x000000 (block 0 0 0 0x40 0x013F00) = none := by decide
/-- HL3. -/
theorem test_reset :
    regsAfter (step { block 0 0 0 0x40 0x013F00 with inputs := [.reset none, .command 0x011800] }) = some (0, 0, 0, 0, 0) := by
  decide
theorem test_lowestMismatch :
    afterWord 0x040000 { State.reset with rom := Memory.setEntry badTable 40 0x0000 } = some (0, 0, 0, 0x80, 0x040600) := by
  decide
/-- G2, G4, G5. -/
theorem test_iroot : iroot12 (2 ^ 90) = 181 ∧ iroot12 (2 ^ 140) = 3250 ∧ iroot12 (2 ^ 145) = 4339 := by decide
/-- 41_generate.md R100, R104: the table is `Generate()`. -/
theorem test_generate : generate = builtTable := by decide
/-- 20_memory.md R52, R57: entry 24 is 0x01 0x00, its fraction byte at 48. -/
theorem test_bytes : Memory.readByte [] 48 = 0x00 ∧ Memory.readByte [] 49 = 0x01 := by decide
theorem test_badTable_wf : Memory.wf badTable = true ∧ badTable = [(12, 0x5A)] := by decide
theorem test_illFormed_memory : Memory.wf [(12, 0x5B)] = false ∧ Memory.wf [(13, 1), (12, 1)] = false := by decide
/-- SC15: the views. -/
theorem test_views : (block 61 0x087A 0x0106C6 0x0D 0).prodInt = 0x0106 ∧ (block 61 0x087A 0x0106C6 0x0D 0).div8 = 0x06 ∧
    (block 61 0x087A 0x0106C6 0x0D 0).prodFrac = 0xC6 ∧ (block 61 0x087A 0 1 0).multHi = 0x08 ∧
    (block 61 0x087A 0 1 0).multLo = 0x7A := by decide

/-! The environment (P7) and the assembler (P2, 30_encoding.md R79). -/

theorem test_initialize :
    ((Chip.writeAll State.reset.chip (initializeLog params)).regs).voiceControl = .const 0x10 ∧
    (initializeLog params).length = 14 := by decide
theorem test_assembleLine :
    assembleLine ['L','O','O','K','U','P','R','E','L',' ','4','8',',',' ','2','4',' ',';','x'] = .ok (some (.lookuprel 48 24)) := by
  decide
theorem test_assembleHex : assembleLine ['S','C','A','L','E',' ','0','x','5','0'] = .ok (some (.scale 0x50)) := by decide
theorem test_assembleRefuses :
    assembleLine ['S','C','A','L','E',' ','2','5','6'] = .error .operandOutOfRange ∧
    assembleLine ['L','O','O','K','U','P',' ','-','1'] = .error .notANumeral ∧
    assembleLine ['n','o','p'] = .error .unknownMnemonic ∧ assembleLine ['G','E','N'] = .error .wrongOperandCount := by decide
theorem test_assemble : assemble ['N','O','P','\n','V','E','R','I','F','Y'] = .ok [0x000000, 0x040000] := by decide

/-! Witnesses: states and operands that meet the hypotheses of the statements. -/

/-- A block about to take a word. -/
def ready (w : Word) : State := { State.reset with inputs := [.command w] }

/-- The halted block of HL1, with some inputs to come. -/
def haltedWith (is : List HostInput) : State := { block 0 0 0 0x40 0x013F00 with inputs := is }

/-- The block of P4 after its first word. -/
def lookedUp : State := block 61 0x087A 0 0x01 0

/-- The block after `LOOKUP 24; SCALE 0x40` (P1). -/
def scaled : State := block 24 0x0100 0x004000 0x05 0

theorem ready_halted (w : Word) : (ready w).halted = false := by
  simp [ready, State.halted, State.cause, State.reset]

theorem ready_step (w : Word) (i : Instr) (h : decode w = .ok i) :
    step (ready w) = exec i (acceptCommand [] (ready w)) := by
  rw [step_command (s := ready w) (w := w) (rest := []) rfl (ready_halted w), execWord_ok h]

theorem reset_inv : Inv State.reset := by
  constructor <;> first | decide | (intro h; exact absurd h (by decide))

theorem reset_conforms : RomConforms State.reset.rom := by unfold RomConforms; decide

theorem lookedUp_inv : Inv lookedUp := by
  constructor <;> first | decide | (intro h; exact absurd h (by decide))

theorem badTable_mismatch : tblRead badTable 6 ≠ BitVec.ofNat 16 (G 6) ∧
    ∀ k : NoteIndex, k < 6 → tblRead badTable k = BitVec.ofNat 16 (G k.val) := by decide

theorem test_witness_DecodeAndEncodeAgree : decode 0x013D00 = .ok (.lookup 61) := by decide
theorem test_witness_LegalWordsAreTheOpcodeRows : decode 0x02FFFF = .ok (.lookuprel 255 255) := by decide
theorem test_witness_IllegalWordsRaiseIllegalCommand :
    (ready 0x060000).inputs = [.command 0x060000] ∧ (ready 0x060000).halted = false ∧
    decode 0x060000 = .error (.unassignedOpcode 6) ∧ decode 0x040100 = .error (.mustBeZeroField 4) ∧
    decode 0x050001 = .error (.mustBeZeroField 5) := by decide
theorem test_witness_CommandBytesReadBack : ([0x00, 0x00] : List Byte).length < 3 := by decide
theorem test_witness_StepRunsTheDecodedInstruction :
    ((ready 0).inputs = [.command 0] ∧ (ready 0).halted = false ∧ decode 0 = .ok .nop) ∧
    ((ready 0x000001).halted = false ∧ decode 0x000001 = .error (.mustBeZeroField 0)) ∧
    (haltedWith [.command 0]).halted = true := by decide
theorem test_witness_PositionCountsAcceptedCommands :
    (∃ t, step (ready 0) = .next t) ∧
    (haltedWith [.reset none]).halted = true ∧ ∃ t, step (haltedWith [.reset none]) = .next t :=
  ⟨⟨_, ready_step 0 .nop (by decide)⟩, by decide, ⟨_, rfl⟩⟩
theorem test_witness_EveryAcceptedCommandCompletes :
    (ready 0).halted = false ∧ ∃ f, step (haltedWith []) = .fault f := ⟨by decide, _, step_noInput_halted rfl (by decide)⟩
theorem test_witness_BlockKeepsItsStateWithoutCommands :
    (State.reset.inputs = [] ∧ State.reset.halted = false) ∧ ((haltedWith []).inputs = [] ∧ (haltedWith []).halted = true) ∧
    (haltedWith [.idle]).inputs = [.idle] := by decide
theorem test_witness_ResetLeavesTheResetValues :
    (haltedWith [.reset (some 0)]).inputs = [.reset (some 0)] := by decide
theorem test_witness_OnlyResetClearsStickyState :
    ∃ t, step { scaled with inputs := [.command 0] } = .next t ∧ scaled.mv = true ∧
      ∀ p rest, ([.command 0] : List HostInput) ≠ .reset p :: rest :=
  ⟨_, step_command (w := 0) (rest := []) rfl (by decide), by decide, by simp⟩
theorem test_witness_OnlyResetClearsStickyState_verified :
    (block 0 0 0 0x10 0).vf = true ∧ (haltedWith [.idle]).cause ≠ 0 ∧ ∃ t, step (haltedWith [.idle]) = .next t :=
  ⟨by decide, by decide, _, rfl⟩
theorem test_witness_UnwrittenRegistersHoldNoResult :
    Inv State.reset ∧ State.reset.mv = false ∧ State.reset.pv = false ∧ State.reset.halted = false :=
  ⟨reset_inv, by decide⟩
theorem test_witness_ProductViewsTruncate : Inv lookedUp := lookedUp_inv
theorem test_witness_NopChangesNothing :
    State.reset.halted = false ∧ opField 0x0000FF = 0x00 ∧ (ready 0x0000FF).halted = false ∧
    (haltedWith [.command 0]).halted = true := by decide
theorem test_witness_LookupLoadsTheEntryOrFaults :
    State.reset.halted = false ∧ (61 : Byte).toNat = (61 : NoteIndex).val ∧ (0 : Byte).toNat = (0 : NoteIndex).val ∧
    61 < (62 : Byte).toNat ∧ 61 < (255 : Byte).toNat := by decide
theorem test_witness_LookupLoadsTheEntryOrFaults_fault : ∃ t, exec (.lookup 62) State.reset = .next t :=
  ⟨_, exec_lookup_outOfRange (by decide) _⟩
theorem test_witness_LookuprelClampsTheRelativeIndex :
    ((0 : Byte).toNat : Int) - (24 : Byte).toNat + 24 = (0 : NoteIndex).val ∧
    ((61 : Byte).toNat : Int) - (24 : Byte).toNat + 24 = (61 : NoteIndex).val ∧
    ((0 : Byte).toNat : Int) - (25 : Byte).toNat + 24 < 0 ∧ 61 < ((62 : Byte).toNat : Int) - (24 : Byte).toNat + 24 := by
  decide
theorem test_witness_LookuprelIsLookupOfTheClampedIndex :
    ((61 : Byte).toNat : Int) = max 0 (min 61 (((255 : Byte).toNat : Int) - (0 : Byte).toNat + 24)) ∧
    ((0 : Byte).toNat : Int) = max 0 (min 61 (((0 : Byte).toNat : Int) - (255 : Byte).toNat + 24)) := by decide
theorem test_witness_GenLoadsTheGeneratedEntryOrFaults :
    State.reset.halted = false ∧ (61 : Byte).toNat ≤ 61 ∧ 61 < (62 : Byte).toNat ∧
    tblRead State.reset.rom 6 = BitVec.ofNat 16 (G 6) ∧ tblRead badTable 6 ≠ BitVec.ofNat 16 (G 6) := by decide
theorem test_witness_VerifyComparesTheWholeTable :
    (∀ n : NoteIndex, tblRead State.reset.rom n = BitVec.ofNat 16 (G n.val)) ∧
    tblRead badTable 6 ≠ BitVec.ofNat 16 (G 6) ∧ ∀ k : NoteIndex, k < 6 → tblRead badTable k = BitVec.ofNat 16 (G k.val) :=
  ⟨reset_conforms, badTable_mismatch⟩
theorem test_witness_ScaleMultipliesExactlyOrFaults :
    lookedUp.halted = false ∧ lookedUp.mv = true ∧ State.reset.mv = false ∧
    65536 ≤ (31 : Byte).toNat * lookedUp.mult.toNat ∧ (30 : Byte).toNat * lookedUp.mult.toNat < 65536 := by decide
theorem test_witness_ScaleMultipliesExactlyOrFaults_views : ∃ t, exec (.scale 31) lookedUp = .next t :=
  ⟨_, exec_scale_valid (by decide) 31⟩
theorem test_witness_CompletedLookupsShareOneWriteBack :
    (∃ t, exec (.lookup 0) State.reset = .next t ∧ t.halted = false) ∧
    (∃ t, exec (.lookuprel 0 255) State.reset = .next t ∧ t.halted = false) ∧
    ∃ t, exec (.gen 61) State.reset = .next t ∧ t.halted = false :=
  ⟨⟨_, exec_lookup_inRange (k := 0) (by decide) _, by decide⟩, ⟨_, rfl, by decide⟩,
    ⟨_, exec_gen_inRange (k := 61) (by decide) _, by decide⟩⟩
theorem test_witness_CommandsWriteOnlyTheirRegisters :
    (∃ t, exec (.lookup 62) State.reset = .next t ∧ t.halted = true) ∧
    (∃ t, exec (.scale 1) lookedUp = .next t ∧ t.halted = false) ∧ decode 0x060000 = .error (.unassignedOpcode 6) :=
  ⟨⟨_, exec_lookup_outOfRange (by decide) _, by decide⟩, ⟨_, exec_scale_valid (by decide) 1, by decide⟩, by decide⟩
theorem test_witness_LookupResultsDependOnOperandsAlone :
    State.reset.rom = lookedUp.rom ∧ lookedUp.halted = false ∧
    (∃ t t', exec (.lookup 61) State.reset = .next t ∧ exec (.lookup 61) lookedUp = .next t' ∧ t.halted = false) ∧
    ∃ t t', exec (.gen 62) State.reset = .next t ∧ exec (.gen 62) lookedUp = .next t' ∧ t.halted = true :=
  ⟨by decide, by decide,
    ⟨_, _, exec_lookup_inRange (k := 61) (by decide) _, exec_lookup_inRange (k := 61) (by decide) _, by decide⟩,
    ⟨_, _, exec_gen_outOfRange (by decide) _, exec_gen_outOfRange (by decide) _, by decide⟩⟩
theorem test_witness_ConformingProductsStayInRange :
    Inv lookedUp ∧ RomConforms lookedUp.rom ∧ lookedUp.halted = false ∧ lookedUp.mv = true ∧ lookedUp.mult = 0x087A ∧
    ∃ t, exec (.scale 31) lookedUp = .next t :=
  ⟨lookedUp_inv, reset_conforms, by decide, by decide, by decide, _, exec_scale_valid (by decide) 31⟩
theorem test_witness_FaultsAreRecordedPrecisely :
    ∃ t, step (ready 0x013E00) = .next t ∧ (ready 0x013E00).halted = false ∧ t.halted = true :=
  ⟨_, (ready_step 0x013E00 (.lookup 62) (by decide)).trans (exec_lookup_outOfRange (by decide) _), by decide, by decide⟩
theorem test_witness_EachCauseHasItsCondition :
    (∃ t, step (ready 0x013E00) = .next t ∧ t.cause = 2) ∧ (∃ t, step (ready 0x051000) = .next t ∧ t.cause = 3) ∧
    ∃ t, step (ready 0x060000) = .next t ∧ t.cause = 1 :=
  ⟨⟨_, (ready_step 0x013E00 (.lookup 62) (by decide)).trans (exec_lookup_outOfRange (by decide) _), by decide⟩,
    ⟨_, (ready_step 0x051000 (.scale 16) (by decide)).trans (exec_scale_invalid (by decide) 16), by decide⟩,
    ⟨_, (step_command (w := 0x060000) (rest := []) rfl (by decide)).trans
      (execWord_error (e := .unassignedOpcode 6) (by decide) _), by decide⟩⟩
theorem test_witness_EachCauseHasItsCondition_mismatch :
    ∃ t, step { ready 0x040000 with rom := badTable } = .next t ∧ t.cause = 4 :=
  ⟨_, (step_command (w := 0x040000) (rest := []) rfl (by decide)).trans ((execWord_ok (i := .verify) (by decide) _).trans
    (exec_verify_mismatch (n := 6) ((firstMismatch_some badTable 6).2 badTable_mismatch))), by decide⟩
theorem test_witness_DecodingIsCheckedFirst :
    joinFields 0x01 0x40 0x01 = 0x014001 ∧ (ready 0x014001).halted = false ∧ 61 < (0x40 : Byte).toNat := by decide
theorem test_witness_HaltedBlockAcceptsNothing :
    (haltedWith [.command 0]).halted = true ∧ (haltedWith [.command 0]).inputs = [.command 0] ∧
    ∃ t, step (haltedWith [.chipWrite .systemControl 3]) = .next t := ⟨by decide, by decide, _, rfl⟩
theorem test_witness_OnlyResetLeavesTheHaltedState :
    (haltedWith [.idle]).halted = true ∧ (∀ p, HostInput.reset p ∉ (haltedWith [.idle]).inputs) ∧
    ∃ t, Host.Core.run core 1 (haltedWith [.idle]) = .next t :=
  ⟨by decide, by simp [haltedWith], _, run_succ_next (step_idle (rest := []) rfl) 0⟩
theorem test_witness_TableNeverChanges : ∃ t, step (haltedWith [.reset none]) = .next t := ⟨_, rfl⟩
theorem test_witness_CommandsReadOnlyTheirEntries :
    tblRead badTable 61 = tblRead State.reset.rom 61 ∧ (∃ t, exec (.lookup 61) State.reset = .next t) ∧
    ((61 : NoteIndex).val : Int) = max 0 (min 61 (((255 : Byte).toNat : Int) - (0 : Byte).toNat + 24)) ∧
    (∃ t, exec (.lookuprel 255 0) State.reset = .next t) ∧ (∃ t, exec (.gen 0) State.reset = .next t) ∧
    (∃ t, exec .nop State.reset = .next t) ∧ (∃ t, exec (.scale 0) State.reset = .next t) :=
  ⟨by decide, ⟨_, exec_lookup_inRange (k := 61) (by decide) _⟩, by decide, ⟨_, rfl⟩,
    ⟨_, exec_gen_inRange (k := 0) (by decide) _⟩, ⟨_, rfl⟩, ⟨_, exec_scale_invalid (by decide) 0⟩⟩
theorem test_witness_CommandsReadOnlyTheirEntries_verify :
    (0x005A : Entry) ≠ BitVec.ofNat 16 (G 6) ∧ ∃ t, exec .verify { State.reset with rom := badTable } = .next t :=
  ⟨by decide, _, exec_verify_mismatch (s := { State.reset with rom := badTable })
    ((firstMismatch_some badTable 6).2 badTable_mismatch)⟩
theorem test_witness_EntryIsTwoBytesLittleEndian :
    (123 : Fin romBytes).val = 2 * (61 : NoteIndex).val + 1 ∧ (122 : Fin romBytes).val = 2 * (61 : NoteIndex).val := by decide
theorem test_witness_GeneratorIsTheUniqueSolution : (0 : Nat) < G 0 ∧ (119 : Nat) ≤ 119 := by decide
theorem test_witness_StoredTableAnchorsAndOrder : (60 : NoteIndex) < 61 ∧ (61 : NoteIndex).val = (60 : NoteIndex).val + 1 := by
  decide
theorem test_witness_TableContentsAreAParameter :
    RomConforms State.reset.rom ∧ (∃ t, step { block 0 0 0 0x80 0x040600 with inputs := [.idle] } = .next t ∧ t.cause = 4) ∧
    (24 : Byte).toNat = (24 : NoteIndex).val ∧ ((0 : Byte).toNat : Int) - (0 : Byte).toNat + 24 = (24 : NoteIndex).val ∧
    (0 : Entry) ≠ BitVec.ofNat 16 (G 24) := ⟨reset_conforms, ⟨_, rfl, by decide⟩, by decide⟩
theorem test_witness_EveryStepKeepsTheInvariants : Inv lookedUp ∧ ∃ t, step lookedUp = .next t :=
  ⟨lookedUp_inv, _, step_noInput rfl (by decide)⟩
theorem test_witness_ReachableStatesMeetTheInvariants :
    ∃ t, Host.Core.run core 1 (startState badTable State.reset.chip [.idle]) = .next t :=
  ⟨_, run_succ_next (step_idle (rest := []) rfl) 0⟩
theorem test_witness_LegalStreamsAreThoseThatComplete :
    RomConforms State.reset.rom ∧ LegalStream false [.lookup 61, .scale 255] ∧ ¬LegalStream false [.scale 255] :=
  ⟨reset_conforms, ⟨by decide, rfl, trivial⟩, fun h => by simp [LegalStream] at h⟩
theorem test_witness_CommandsNeverTouchTheChip : ∃ t, exec (.lookup 61) State.reset = .next t :=
  ⟨_, exec_lookup_inRange (k := 61) (by decide) _⟩
theorem test_witness_ChipWriteChangesOneRegister :
    (haltedWith [.chipWrite .systemControl 3]).inputs = [.chipWrite .systemControl 3] ∧
    (∃ t, step (haltedWith [.chipWrite .systemControl 3]) = .next t) ∧
    (ChipReg.voiceControl .v1) ≠ ChipReg.systemControl := ⟨by decide, ⟨_, rfl⟩, by decide⟩
theorem test_witness_InitializeEndsInTheConfiguredState :
    ({ params with voiceOrder := [.v4, .v3, .v2, .v1] } : InitParams).wellFormed = true := by decide
theorem test_witness_InitializeKeepsItsStepOrder :
    ({ params with divisorOrder := [.v2, .v1, .v4, .v3], settleDelay := 2 } : InitParams).wellFormed = true := by decide
theorem test_witness_InitializeSilencesBeforeInterrupts :
    params.wellFormed = true ∧ initializeBody params = [⟨.interruptEnableMask, 0⟩] ++ (initializeBody params).tail := by decide
theorem test_witness_InitializeLeavesTheBlockAlone :
    (haltedWith (initializeInputs params ++ [.reset none])).inputs = initializeInputs params ++ [.reset none] := rfl

end Sys2Proof.Tests
end

section
/-! The rules that the statements about the state rest on: what each command can leave behind, what a step can do, and what
each update does to the invariants of R36. -/

namespace Sys2Proof.Machine

/-! What a command that answers `t` has done, from the side of `t`. -/

/-- The five things an accepted command can have done (`exec_effect`). -/
theorem exec_next_cases {i : Instr} {s t : State} (h : exec i s = .next t) :
    t = s ∨
    (∃ k m cl, t = writeMult k m cl s ∧ (m = tblRead s.rom k ∨ m = generatedEntry k.val) ∧
      (cl = true → k.val = 0 ∨ k.val = 61)) ∨
    (∃ d, s.mv = true ∧ t = writeProd (product d s.mult) s) ∨
    (RomConforms s.rom ∧ t = setVerified s) ∨
    (∃ c info, info ≠ 0 ∧ t = raise c info s) := by
  obtain ⟨t', ht', effect⟩ := exec_effect i s
  obtain rfl : t' = t := by simpa [ht'] using h
  exact effect

/-- No command touches the table, the chip, the host's list or the position (R26, R30, R33). -/
theorem exec_keeps_environment {i : Instr} {s t : State} (h : exec i s = .next t) :
    t.rom = s.rom ∧ t.chip = s.chip ∧ t.inputs = s.inputs ∧ t.pos = s.pos := by
  obtain rfl | ⟨k, m, cl, rfl, -⟩ | ⟨d, -, rfl⟩ | ⟨-, rfl⟩ | ⟨c, info, -, rfl⟩ := exec_next_cases h <;>
    exact ⟨rfl, rfl, rfl, rfl⟩

/-- A command that halts the block has raised a fault (R163). -/
theorem exec_halted {i : Instr} {s t : State} (hs : s.halted = false) (h : exec i s = .next t) (ht : t.halted = true) :
    ∃ c info, t = raise c info s := by
  obtain rfl | ⟨k, m, cl, rfl, -⟩ | ⟨d, -, rfl⟩ | ⟨-, rfl⟩ | ⟨c, info, -, rfl⟩ := exec_next_cases h
  case inr.inr.inr.inr => exact ⟨c, info, rfl⟩
  all_goals simp [hs] at ht

/-- A command that completes leaves FINFO alone (R25, R26). -/
theorem exec_completed_finfo {i : Instr} {s t : State} (h : exec i s = .next t) (ht : t.halted = false) :
    t.finfo = s.finfo := by
  obtain rfl | ⟨k, m, cl, rfl, -⟩ | ⟨d, -, rfl⟩ | ⟨-, rfl⟩ | ⟨c, info, -, rfl⟩ := exec_next_cases h
  case inr.inr.inr.inr => simp at ht
  all_goals rfl

/-! The two things each command that can fault may have done. -/

theorem exec_lookup_cases {n : Byte} {s t : State} (h : exec (.lookup n) s = .next t) :
    (∃ k : NoteIndex, n.toNat = k.val ∧ t = writeMult k (tblRead s.rom k) false s) ∨
    (61 < n.toNat ∧ t = raise .indexOutOfRange (encode (.lookup n)) s) := by
  rcases hk : checkIndex n with _ | k
  · rw [checkIndex_none] at hk
    rw [exec_lookup_outOfRange hk] at h
    cases h
    exact .inr ⟨hk, rfl⟩
  · rw [checkIndex_some] at hk
    rw [exec_lookup_inRange hk] at h
    cases h
    exact .inl ⟨k, hk, rfl⟩

theorem exec_gen_cases {n : Byte} {s t : State} (h : exec (.gen n) s = .next t) :
    (∃ k : NoteIndex, n.toNat = k.val ∧ t = writeMult k (generatedEntry k.val) false s) ∨
    (61 < n.toNat ∧ t = raise .indexOutOfRange (encode (.gen n)) s) := by
  rcases hk : checkIndex n with _ | k
  · rw [checkIndex_none] at hk
    rw [exec_gen_outOfRange hk] at h
    cases h
    exact .inr ⟨hk, rfl⟩
  · rw [checkIndex_some] at hk
    rw [exec_gen_inRange hk] at h
    cases h
    exact .inl ⟨k, hk, rfl⟩

theorem exec_verify_cases {s t : State} (h : exec .verify s = .next t) :
    (RomConforms s.rom ∧ t = setVerified s) ∨
    (∃ n, firstMismatch s.rom = some n ∧ t = raise .tableMismatch (mismatchInfo n) s) := by
  rcases hn : firstMismatch s.rom with _ | n
  · rw [firstMismatch_none] at hn
    rw [exec_verify_conforming hn] at h
    cases h
    exact .inl ⟨hn, rfl⟩
  · rw [exec_verify_mismatch hn] at h
    cases h
    exact .inr ⟨n, rfl, rfl⟩

theorem exec_scale_cases {d : Byte} {s t : State} (h : exec (.scale d) s = .next t) :
    (s.mv = true ∧ t = writeProd (product d s.mult) s) ∨
    (s.mv = false ∧ t = raise .multiplierNotValid (encode (.scale d)) s) := by
  rcases hm : s.mv
  · rw [exec_scale_invalid hm] at h
    cases h
    exact .inr ⟨rfl, rfl⟩
  · rw [exec_scale_valid hm] at h
    cases h
    exact .inl ⟨rfl, rfl⟩

/-- A lookup command over one table does one thing, whatever else the state holds: it writes back one result, or raises one
fault (R32). -/
theorem lookup_effect_of_rom {i : Instr}
    (hi : (∃ n, i = .lookup n) ∨ (∃ e b, i = .lookuprel e b) ∨ (∃ n, i = .gen n)) (rom : Memory) :
    (∃ k m cl, ∀ s : State, s.rom = rom → exec i s = .next (writeMult k m cl s)) ∨
    (∃ c info, ∀ s : State, s.rom = rom → exec i s = .next (raise c info s)) := by
  obtain ⟨n, rfl⟩ | ⟨e, b, rfl⟩ | ⟨n, rfl⟩ := hi
  · rcases h : checkIndex n with _ | k
    · exact .inr ⟨_, _, fun s _ => exec_lookup_outOfRange (checkIndex_none.1 h) s⟩
    · exact .inl ⟨k, tblRead rom k, false, fun s hs => hs ▸ exec_lookup_inRange (checkIndex_some.1 h) s⟩
  · exact .inl ⟨_, tblRead rom _, _, fun s hs => hs ▸ exec_lookuprel e b s⟩
  · rcases h : checkIndex n with _ | k
    · exact .inr ⟨_, _, fun s _ => exec_gen_outOfRange (checkIndex_none.1 h) s⟩
    · exact .inl ⟨_, _, _, fun s _ => exec_gen_inRange (checkIndex_some.1 h) s⟩

/-! The bits of STATUS that an update leaves alone or determines (R24, R26). -/

theorem statusAfterLookup_and_0F (cl : Bool) (s : State) :
    statusAfterLookup cl s &&& 0x0F = if cl then 0x03 else 0x01 := by
  have h : ∀ (b : Byte) (c : Bool), ((b &&& 0xF0) ||| (if c then 0x03 else 0x01)) &&& 0x0F = if c then 0x03 else 0x01 := by
    decide
  rw [statusAfterLookup_mask, h]

/-- All of STATUS but CL after a completed lookup. -/
theorem statusAfterLookup_and_FD (cl : Bool) (s : State) :
    statusAfterLookup cl s &&& 0xFD = (s.status &&& 0xF0) ||| 0x01 := by
  have h : ∀ (b : Byte) (c : Bool), ((b &&& 0xF0) ||| (if c then 0x03 else 0x01)) &&& 0xFD = (b &&& 0xF0) ||| 0x01 := by
    decide
  rw [statusAfterLookup_mask, h]

/-- All of STATUS but TR after a completed scale. -/
theorem statusAfterScale_and_F7 (tr : Bool) (s : State) :
    statusAfterScale tr s &&& 0xF7 = (s.status &&& 0xF3) ||| 0x04 := by
  have h : ∀ (b : Byte) (c : Bool), ((b &&& 0xF3) ||| (if c then 0x0C else 0x04)) &&& 0xF7 = (b &&& 0xF3) ||| 0x04 := by
    decide
  rw [statusAfterScale_mask, h]

/-- The flags after a fault. -/
theorem statusAfterFault_and_1F (c : FaultCause) (s : State) :
    statusAfterFault c s &&& 0x1F = s.status &&& 0x1F := by
  have h : ∀ (b : Byte) (k : BitVec 3), ((b &&& 0x1F) ||| (k.zeroExtend 8 <<< 5)) &&& 0x1F = b &&& 0x1F := by
    decide
  rw [statusAfterFault_mask, h]

/-- The top three bits of STATUS are CAUSE, so they are 0 while the block is not halted. -/
theorem status_and_E0_of_not_halted {s : State} (h : s.halted = false) : s.status &&& 0xE0 = 0 := by
  have top : ∀ b : Byte, b.extractLsb' 5 3 = 0 → b &&& 0xE0 = 0 := by decide
  exact top s.status ((not_halted_iff_cause s).1 h)

/-! The step. -/

/-- Everything a step to a next state can be: nothing to do, a command executed or found illegal, a reset, a chip write or
an idle moment (R9, R30, R72, R190). -/
theorem step_next_cases {s t : State} (h : step s = .next t) :
    (s.inputs = [] ∧ s.halted = false ∧ t = s) ∨
    (∃ w rest, s.inputs = .command w :: rest ∧ s.halted = false ∧
      ((∃ i, decode w = .ok i ∧ exec i (acceptCommand rest s) = .next t) ∨
       (∃ e, decode w = .error e ∧ t = raise .illegalCommand w (acceptCommand rest s)))) ∨
    (∃ p rest, s.inputs = .reset p :: rest ∧ t = resetBlock (takeInput rest s)) ∨
    (∃ r v rest, s.inputs = .chipWrite r v :: rest ∧ t = hostChipWrite r v (takeInput rest s)) ∨
    (∃ rest, s.inputs = .idle :: rest ∧ t = takeInput rest s) := by
  rcases hi : s.inputs with _ | ⟨w | p | ⟨r, v⟩ | _, rest⟩
  · rcases hh : s.halted
    · rw [step_noInput hi hh] at h
      cases h
      exact .inl ⟨rfl, rfl, rfl⟩
    · rw [step_noInput_halted hi hh] at h
      cases h
  · obtain ⟨hh, effect⟩ := step_command_next hi h
    exact .inr (.inl ⟨w, rest, rfl, hh, effect⟩)
  · rw [step_resetInput hi] at h
    cases h
    exact .inr (.inr (.inl ⟨p, rest, rfl, rfl⟩))
  · rw [step_chipWrite hi] at h
    cases h
    exact .inr (.inr (.inr (.inl ⟨r, v, rest, rfl, rfl⟩)))
  · rw [step_idle hi] at h
    cases h
    exact .inr (.inr (.inr (.inr ⟨rest, rfl, rfl⟩)))

/-- An accepted command, legal or not, advances the position by one and leaves the rest of the host's list (R30). -/
theorem acceptedCommand_keeps_environment {s t : State} {w : Word} {rest : List HostInput}
    (h : (∃ i, decode w = .ok i ∧ exec i (acceptCommand rest s) = .next t) ∨
      (∃ e, decode w = .error e ∧ t = raise .illegalCommand w (acceptCommand rest s))) :
    t.inputs = rest ∧ t.pos = s.pos + 1 := by
  obtain ⟨i, -, hx⟩ | ⟨e, -, rfl⟩ := h
  · obtain ⟨-, -, hinputs, hpos⟩ := exec_keeps_environment hx
    exact ⟨hinputs, hpos⟩
  · exact ⟨rfl, rfl⟩

/-- A word that does not decode is not 0, because 0 is NOP (R36 (h)). -/
theorem ne_zero_of_decode_error {w : Word} {e : DecodeError} (h : decode w = .error e) : w ≠ 0 := by
  rintro rfl
  have hnop : decode 0 = .ok .nop := by decide
  rw [hnop] at h
  cases h

end Sys2Proof.Machine

namespace Sys2Proof
open Machine

/-! The invariants of R36 under each update of the state. -/

/-- The invariants speak of the five registers and the ROM only. -/
theorem Inv.with_environment {s : State} (h : Inv s) (chip : Chip) (inputs : List HostInput) (pos : Nat) :
    Inv { s with chip := chip, inputs := inputs, pos := pos } :=
  ⟨h.idx_le, h.mult_of_mv, h.empty_of_not_mv, h.prod_of_pv, h.empty_of_not_pv, h.tr_iff, h.cl_at_end, h.cause_iff_finfo,
    h.cause_le, h.conforms_of_vf⟩

/-- A note index fits the six bits of IDX (R21). -/
theorem ofNat_noteIndex_toNat (k : NoteIndex) : (BitVec.ofNat 6 k.val).toNat = k.val := by
  have hk := noteIndex_lt k
  rw [BitVec.toNat_ofNat]
  omega

/-- A completed lookup keeps the invariants: its entry is the table's or the formula's, and a clamped index is an end of
the table (R90, R92). -/
theorem Inv.writeMult {s : State} (h : Inv s) {k : NoteIndex} {m : Entry} {cl : Bool}
    (hm : m = tblRead s.rom k ∨ m = generatedEntry k.val) (hcl : cl = true → k.val = 0 ∨ k.val = 61) :
    Inv (writeMult k m cl s) where
  idx_le := by
    have hk := noteIndex_lt k
    rw [writeMult_idx, ofNat_noteIndex_toNat]
    simp only [Config.noteMax]
    omega
  mult_of_mv _ := ⟨k, ofNat_noteIndex_toNat k, hm⟩
  empty_of_not_mv := by simp
  prod_of_pv := by simp
  empty_of_not_pv := by simp
  tr_iff := by simp
  cl_at_end := by
    intro hc
    rw [writeMult_cl] at hc
    obtain h0 | h61 := hcl hc
    · exact .inl (by simp [h0])
    · exact .inr (by simp [h61])
  cause_iff_finfo := by simpa using h.cause_iff_finfo
  cause_le := by simpa using h.cause_le
  conforms_of_vf := by simpa using h.conforms_of_vf

/-- TR of an exact product is bits 23:16 of PROD not being 0 (R111, R113). -/
theorem truncationLost_product (d : Byte) (m : Entry) :
    truncationLost (product d m) = true ↔ (BitVec.ofNat 24 (product d m)).extractLsb' 16 8 ≠ 0 := by
  have hp := product_exact d m
  simp [truncationLost, ← BitVec.toNat_inj, BitVec.extractLsb'_toNat, hp, Nat.shiftRight_eq_div_pow]

/-- A completed scale keeps the invariants: PROD is the exact product of the multiplier that MV says is there (R111). -/
theorem Inv.writeProd {s : State} (h : Inv s) (d : Byte) (hmv : s.mv = true) :
    Inv (writeProd (product d s.mult) s) where
  idx_le := h.idx_le
  mult_of_mv _ := h.mult_of_mv hmv
  empty_of_not_mv := by simp [hmv]
  prod_of_pv _ := ⟨by simpa using hmv, d, product_exact d s.mult⟩
  empty_of_not_pv := by simp
  tr_iff := by
    rw [writeProd_tr]
    exact truncationLost_product d s.mult
  cl_at_end := by simpa using h.cl_at_end
  cause_iff_finfo := by simpa using h.cause_iff_finfo
  cause_le := by simpa using h.cause_le
  conforms_of_vf := by simpa using h.conforms_of_vf

/-- A successful VERIFY keeps the invariants: VF is set over a conforming table only (R102). -/
theorem Inv.setVerified {s : State} (h : Inv s) (hrom : RomConforms s.rom) : Inv (setVerified s) where
  idx_le := h.idx_le
  mult_of_mv := by simpa using h.mult_of_mv
  empty_of_not_mv := by simpa using h.empty_of_not_mv
  prod_of_pv := by simpa using h.prod_of_pv
  empty_of_not_pv := by simpa using h.empty_of_not_pv
  tr_iff := by simpa using h.tr_iff
  cl_at_end := by simpa using h.cl_at_end
  cause_iff_finfo := by simpa using h.cause_iff_finfo
  cause_le := by simpa using h.cause_le
  conforms_of_vf _ := hrom

/-- A fault keeps the invariants: the cause is one of the four and the word recorded with it is not 0 (R160, R163). -/
theorem Inv.raise {s : State} (h : Inv s) (c : FaultCause) {info : Word} (hinfo : info ≠ 0) :
    Inv (raise c info s) where
  idx_le := h.idx_le
  mult_of_mv := by simpa using h.mult_of_mv
  empty_of_not_mv := by simpa using h.empty_of_not_mv
  prod_of_pv := by simpa using h.prod_of_pv
  empty_of_not_pv := by simpa using h.empty_of_not_pv
  tr_iff := by simpa using h.tr_iff
  cl_at_end := by simpa using h.cl_at_end
  cause_iff_finfo := by
    have hcause : (Machine.raise c info s).cause ≠ 0 := (halted_iff_cause _).1 (raise_halted c info s)
    exact iff_of_false hcause hinfo
  cause_le := by
    rw [raise_cause]
    exact c.code_range.2
  conforms_of_vf := by simpa using h.conforms_of_vf

/-- A block whose five registers are 0 has the invariants, whatever its table. -/
theorem inv_of_registers_zero {s : State} (hidx : s.idx = 0) (hmult : s.mult = 0) (hprod : s.prod = 0)
    (hstatus : s.status = 0) (hfinfo : s.finfo = 0) : Inv s := by
  constructor <;> simp [State.mv, State.cl, State.pv, State.tr, State.vf, State.cause, *]

/-- An executed command keeps the invariants. -/
theorem Inv.exec {i : Instr} {s t : State} (hs : Inv s) (h : exec i s = .next t) : Inv t := by
  obtain rfl | ⟨k, m, cl, rfl, hm, hcl⟩ | ⟨d, hmv, rfl⟩ | ⟨hrom, rfl⟩ | ⟨c, info, hinfo, rfl⟩ := exec_next_cases h
  · exact hs
  · exact hs.writeMult hm hcl
  · exact hs.writeProd d hmv
  · exact hs.setVerified hrom
  · exact hs.raise c hinfo

/-! R36: the invariants along a run. -/

/-- Settles O44: case by case over what a step can do, each update keeping the invariants by its own rule. -/
theorem everyStepKeepsTheInvariants : Obligations.EveryStepKeepsTheInvariants := by
  intro s t hs h
  obtain ⟨-, -, rfl⟩ | ⟨w, rest, -, -, executed | illegal⟩ | ⟨p, rest, -, rfl⟩ | ⟨r, v, rest, -, rfl⟩ | ⟨rest, -, rfl⟩ :=
    step_next_cases h
  · exact hs
  · obtain ⟨i, -, hx⟩ := executed
    exact Inv.exec (hs.with_environment ..) hx
  · obtain ⟨e, hd, rfl⟩ := illegal
    exact Inv.raise (hs.with_environment ..) _ (ne_zero_of_decode_error hd)
  · exact inv_of_registers_zero rfl rfl rfl rfl rfl
  · exact hs.with_environment ..
  · exact hs.with_environment ..

/-- Settles O45: all five registers are 0. -/
theorem resetMeetsTheInvariants : Obligations.ResetMeetsTheInvariants :=
  ⟨inv_of_registers_zero rfl rfl rfl rfl rfl, fun _ _ _ => inv_of_registers_zero rfl rfl rfl rfl rfl⟩

/-- Settles O46: the invariants hold at the start (O45) and every step keeps them (O44). -/
theorem reachableStatesMeetTheInvariants : Obligations.ReachableStatesMeetTheInvariants := by
  intro k rom chip inputs t h
  exact run_keeps Inv everyStepKeepsTheInvariants k _ t (resetMeetsTheInvariants.2 rom chip inputs) h

/-! R26, R30, R32, R33: what commands write and what they depend on. -/

/-- Settles O9: of all the things a step can be, only the accepted command moves the position. -/
theorem positionCountsAcceptedCommands : Obligations.PositionCountsAcceptedCommands := by
  intro s t h
  obtain ⟨hi, -, rfl⟩ | ⟨w, rest, hi, hh, effect⟩ | ⟨p, rest, hi, rfl⟩ | ⟨r, v, rest, hi, rfl⟩ | ⟨rest, hi, rfl⟩ :=
    step_next_cases h
  case inr.inl =>
    obtain ⟨hinputs, hpos⟩ := acceptedCommand_keeps_environment effect
    exact ⟨.inl ⟨w, rest, hi, hh, hinputs, hpos⟩, by simp [hh]⟩
  all_goals exact ⟨.inr ⟨by simp [hi], rfl⟩, fun _ => rfl⟩

/-- Settles O26: an illegal word and a command that faults write what `raise` writes, and a command that completes writes
what its own write-back writes. -/
theorem commandsWriteOnlyTheirRegisters : Obligations.CommandsWriteOnlyTheirRegisters := by
  refine ⟨fun s w e _ hd => ?_, fun i s t hs h => ⟨fun ht => ?_, fun ht => ?_, ?_⟩⟩
  · rw [execWord_error hd, raise_eq]
    rfl
  · obtain ⟨c, info, rfl⟩ := exec_halted hs h ht
    exact ⟨rfl, statusAfterFault_and_1F c s⟩
  · have hcause : t.status &&& 0xE0 = s.status &&& 0xE0 := by
      rw [status_and_E0_of_not_halted hs, status_and_E0_of_not_halted ht]
    refine ⟨exec_completed_finfo h ht, hcause, ?_⟩
    cases i with
    | nop =>
      cases h
      rfl
    | lookup n =>
      obtain ⟨k, -, rfl⟩ | ⟨-, rfl⟩ := exec_lookup_cases h
      · exact writeMult_eq k _ false s
      · simp at ht
    | lookuprel e b =>
      cases h
      exact ⟨rfl, statusAfterLookup_and_FD _ s⟩
    | gen n =>
      obtain ⟨k, -, rfl⟩ | ⟨-, rfl⟩ := exec_gen_cases h
      · exact writeMult_eq k _ false s
      · simp at ht
    | verify =>
      obtain ⟨-, rfl⟩ | ⟨n, -, rfl⟩ := exec_verify_cases h
      · rw [setVerified, statusAfterVerify_mask]
      · simp at ht
    | scale d =>
      obtain ⟨-, rfl⟩ | ⟨-, rfl⟩ := exec_scale_cases h
      · exact ⟨rfl, statusAfterScale_and_F7 _ s⟩
      · simp at ht
  · rintro (rfl | ⟨e, b, rfl⟩)
    · cases h
      exact hs
    · cases h
      exact (writeMult_halted ..).trans hs

/-- Settles O27: over one table a lookup command is one write-back or one fault, the same from every state. -/
theorem lookupResultsDependOnOperandsAlone : Obligations.LookupResultsDependOnOperandsAlone := by
  intro i s s' t t' hi hs hs' hrom h h'
  obtain ⟨k, m, cl, effect⟩ | ⟨c, info, effect⟩ := lookup_effect_of_rom hi s.rom
  · rw [effect s rfl] at h
    rw [effect s' hrom.symm] at h'
    cases h
    cases h'
    have hflags : statusAfterLookup cl s &&& 0x0F = statusAfterLookup cl s' &&& 0x0F := by
      rw [statusAfterLookup_and_0F, statusAfterLookup_and_0F]
    exact ⟨by simp [hs, hs'], fun _ => ⟨rfl, rfl, rfl, hflags⟩, by simp [hs]⟩
  · rw [effect s rfl] at h
    rw [effect s' hrom.symm] at h'
    cases h
    cases h'
    simp

/-- Settles O48: each update a command makes is the same over any chip record. -/
theorem commandsNeverTouchTheChip : Obligations.CommandsNeverTouchTheChip := by
  intro i s t c h
  obtain ⟨-, hchip, -⟩ := exec_keeps_environment h
  refine ⟨hchip, ?_⟩
  cases i with
  | nop =>
    cases h
    exact exec_nop _
  | lookup n =>
    obtain ⟨k, hk, rfl⟩ | ⟨hn, rfl⟩ := exec_lookup_cases h
    · exact exec_lookup_inRange hk _
    · exact exec_lookup_outOfRange hn _
  | lookuprel e b =>
    cases h
    exact exec_lookuprel e b _
  | gen n =>
    obtain ⟨k, hk, rfl⟩ | ⟨hn, rfl⟩ := exec_gen_cases h
    · exact exec_gen_inRange hk _
    · exact exec_gen_outOfRange hn _
  | verify =>
    obtain ⟨hrom, rfl⟩ | ⟨n, hn, rfl⟩ := exec_verify_cases h
    · exact exec_verify_conforming (s := { s with chip := c }) hrom
    · exact exec_verify_mismatch (s := { s with chip := c }) hn
  | scale d =>
    obtain ⟨hm, rfl⟩ | ⟨hm, rfl⟩ := exec_scale_cases h
    · exact exec_scale_valid (s := { s with chip := c }) hm d
    · exact exec_scale_invalid (s := { s with chip := c }) hm d

/-! R23, R24, R27, R28, R34, R35: the registers, their views and the ports. -/

/-- Settles O16: invariants (c) and (e), and the case of SCALE without a multiplier. -/
theorem unwrittenRegistersHoldNoResult : Obligations.UnwrittenRegistersHoldNoResult := by
  intro s hs
  refine ⟨fun hmv => ?_, fun hpv => ?_⟩
  · obtain ⟨hidx, hmult, -, -⟩ := hs.empty_of_not_mv hmv
    refine ⟨hmult, hidx, by simp [State.multResult, hmv], fun _ d => ?_⟩
    exact ⟨_, exec_scale_invalid hmv d, raise_cause .., raise_prod ..⟩
  · obtain ⟨hprod, -⟩ := hs.empty_of_not_pv hpv
    exact ⟨hprod, by simp [State.prodResult, hpv]⟩

theorem prodInt_toNat (s : State) : s.prodInt.toNat = s.prod.toNat / 256 := by
  have hp := s.prod.isLt
  simp only [State.prodInt, BitVec.extractLsb'_toNat, Nat.shiftRight_eq_div_pow]
  omega

theorem div8_toNat (s : State) : s.div8.toNat = s.prod.toNat / 256 % 256 := by
  simp only [State.div8, BitVec.extractLsb'_toNat, Nat.shiftRight_eq_div_pow, Nat.reducePow]

theorem prodFrac_toNat (s : State) : s.prodFrac.toNat = s.prod.toNat % 256 := by
  simp only [State.prodFrac, BitVec.extractLsb'_toNat, Nat.shiftRight_zero, Nat.reducePow]

/-- DIV8 loses bits of PROD_INT exactly when bits 23:16 of PROD are not all 0 (R113). -/
theorem prod_top_ne_zero_iff (s : State) : s.prod.extractLsb' 16 8 ≠ 0 ↔ s.div8.toNat ≠ s.prodInt.toNat := by
  have hp := s.prod.isLt
  rw [div8_toNat, prodInt_toNat, ne_eq, ← BitVec.toNat_inj, BitVec.extractLsb'_toNat, Nat.shiftRight_eq_div_pow]
  simp only [BitVec.ofNat_eq_ofNat, BitVec.toNat_zero]
  omega

/-- Settles O17: the three views as quotients and remainders, and TR by invariant (f). -/
theorem productViewsTruncate : Obligations.ProductViewsTruncate := fun s =>
  ⟨prodInt_toNat s, div8_toNat s, prodFrac_toNat s, fun hs => hs.tr_iff.trans (prod_top_ne_zero_iff s)⟩

/-- Settles O12: the built table is the formula's at all 62 indices, and a reset step is `resetBlock`. -/
theorem resetLeavesTheResetValues : Obligations.ResetLeavesTheResetValues := by
  refine ⟨⟨rfl, rfl, rfl, rfl, rfl, ?_⟩, fun s p rest hi => ?_⟩
  · unfold RomConforms
    decide
  · rw [step_resetInput hi]
    rfl

/-- Settles O14: a fact about all 256 bytes. -/
theorem statusFieldsMakeTheByte : Obligations.StatusFieldsMakeTheByte := by
  have fields : ∀ b : Byte, b.toNat =
      (b.getLsbD 0).toNat + 2 * (b.getLsbD 1).toNat + 4 * (b.getLsbD 2).toNat + 8 * (b.getLsbD 3).toNat +
        16 * (b.getLsbD 4).toNat + 32 * (b.extractLsb' 5 3).toNat := by
    decide
  exact fun s => fields s.status

/-- Settles O15: the ports are the registers, and `halted` is CAUSE not 0. -/
theorem portsShowTheRegisters : Obligations.PortsShowTheRegisters := by
  refine fun s => ⟨rfl, rfl, rfl, rfl, rfl, halted_iff_cause s, ?_⟩
  calc s.ports.cmdReady = true ↔ s.halted = false := by simp [State.ports]
    _ ↔ s.cause = 0 := not_halted_iff_cause s

end Sys2Proof
end

section
/-! The table and the generator (20_memory.md): what reads which entry, the byte view, the integer root of R54 against the
real formula of R53, and the stored values. -/

namespace Sys2Proof.Machine

/-! R51, R60: the table over a step, and a command over another table. -/

/-- Nothing an agent does writes the table (R51). -/
theorem step_rom {s t : State} (h : step s = .next t) : t.rom = s.rom := by
  obtain ⟨-, -, rfl⟩ | ⟨w, rest, -, -, executed | illegal⟩ | ⟨p, rest, -, rfl⟩ | ⟨r, v, rest, -, rfl⟩ | ⟨rest, -, rfl⟩ :=
    step_next_cases h
  case inr.inl.inl =>
    obtain ⟨i, -, hx⟩ := executed
    exact (exec_keeps_environment hx).1
  case inr.inl.inr =>
    obtain ⟨e, -, rfl⟩ := illegal
    rfl
  all_goals rfl

/-- The clamped index is the one that `max` and `min` name (R92). -/
theorem clampIndex_rawIndex_eq {e b : Byte} {k : NoteIndex}
    (hk : (k.val : Int) = max 0 (min 61 ((e.toNat : Int) - b.toNat + 24))) : clampIndex (rawIndex e b) = k := by
  have hval := clampIndex_val (rawIndex e b)
  apply Fin.ext
  simp only [rawIndex, Config.unityIndex] at hval ⊢
  split_ifs at hval <;> omega

theorem exec_lookup_with_rom {s t : State} {m : Memory} {n : Byte} {k : NoteIndex} (hk : n.toNat = k.val)
    (hm : tblRead m k = tblRead s.rom k) (h : exec (.lookup n) s = .next t) :
    exec (.lookup n) { s with rom := m } = .next { t with rom := m } := by
  rw [exec_lookup_inRange hk] at h ⊢
  cases h
  rw [hm]
  rfl

theorem exec_lookuprel_with_rom {s t : State} {m : Memory} {e b : Byte} {k : NoteIndex}
    (hk : clampIndex (rawIndex e b) = k) (hm : tblRead m k = tblRead s.rom k) (h : exec (.lookuprel e b) s = .next t) :
    exec (.lookuprel e b) { s with rom := m } = .next { t with rom := m } := by
  rw [exec_lookuprel, hk] at h ⊢
  cases h
  rw [hm]
  rfl

/-- GEN computes its entry and reads none (R101). -/
theorem exec_gen_with_rom {s t : State} {n : Byte} (m : Memory) (h : exec (.gen n) s = .next t) :
    exec (.gen n) { s with rom := m } = .next { t with rom := m } := by
  obtain ⟨k, hk, rfl⟩ | ⟨hn, rfl⟩ := exec_gen_cases h
  · exact exec_gen_inRange hk _
  · exact exec_gen_outOfRange hn _

/-- SCALE reads MULT and MV and no entry (R111). -/
theorem exec_scale_with_rom {s t : State} {d : Byte} (m : Memory) (h : exec (.scale d) s = .next t) :
    exec (.scale d) { s with rom := m } = .next { t with rom := m } := by
  obtain ⟨hmv, rfl⟩ | ⟨hmv, rfl⟩ := exec_scale_cases h
  · exact exec_scale_valid (s := { s with rom := m }) hmv d
  · exact exec_scale_invalid (s := { s with rom := m }) hmv d

/-- VERIFY over a table with a wrong entry anywhere records TableMismatch (R102). -/
theorem exec_verify_cause_of_wrong_entry {s t : State} {k : NoteIndex} (hk : tblRead s.rom k ≠ generatedEntry k.val)
    (h : exec .verify s = .next t) : t.cause = FaultCause.tableMismatch.code := by
  obtain ⟨hrom, -⟩ | ⟨n, -, rfl⟩ := exec_verify_cases h
  · exact absurd (hrom k) hk
  · exact raise_cause ..

/-! R57: the byte view. -/

theorem fractionAddr_eq {n : NoteIndex} {lo : Fin romBytes} (h : lo.val = 2 * n.val) : fractionAddr n = lo := Fin.ext h.symm

theorem integerAddr_eq {n : NoteIndex} {hi : Fin romBytes} (h : hi.val = 2 * n.val + 1) : integerAddr n = hi :=
  Fin.ext h.symm

/-- Two bytes joined are a number in base 256. -/
theorem byte_append_toNat (hi lo : Byte) : (hi ++ lo : Entry).toNat = 256 * hi.toNat + lo.toNat := by
  rw [BitVec.toNat_append, ← Nat.shiftLeft_add_eq_or_of_lt lo.isLt, Nat.shiftLeft_eq]
  omega

theorem tblRead_toNat (m : Memory) (n : NoteIndex) :
    (tblRead m n).toNat = 256 * (Memory.readByte m (integerAddr n)).toNat + (Memory.readByte m (fractionAddr n)).toNat :=
  byte_append_toNat _ _

theorem rate_mul_256 (m : Entry) : rate m * 256 = (m.toNat : Rat) := by
  rw [rate, Rat.mkRat_eq_div]
  push_cast
  exact div_mul_cancel₀ _ (by norm_num)

/-! R54: the generator by integer arithmetic. -/

/-- The integer root as an adjoint: `k` is at most the root exactly when its power is at most the number. -/
theorem le_iroot12_iff {k t : Nat} : k ≤ iroot12 t ↔ k ^ 12 ≤ t := by
  obtain ⟨hlo, hhi⟩ := iroot12_spec t
  constructor
  · exact fun h => (Nat.pow_le_pow_left h 12).trans hlo
  · exact fun h => Nat.le_of_lt_succ (lt_of_pow_lt_pow_left' 12 (h.trans_lt hhi))

theorem iroot12_lt_iff {k t : Nat} : iroot12 t < k ↔ t < k ^ 12 := by
  rw [← not_le, le_iroot12_iff, not_le]

theorem iroot12_eq_iff {t r : Nat} : iroot12 t = r ↔ r ^ 12 ≤ t ∧ t < (r + 1) ^ 12 := by
  rw [← le_iroot12_iff, ← iroot12_lt_iff]
  omega

theorem iroot12_mono {t u : Nat} (h : t ≤ u) : iroot12 t ≤ iroot12 u :=
  le_iroot12_iff.2 ((iroot12_spec t).1.trans h)

theorem G_eq (n : Nat) : G n = (iroot12 (2 ^ (n + 84)) + 1) / 2 := rfl

theorem G_mono {n k : Nat} (h : n ≤ k) : G n ≤ G k := by
  have hroot := iroot12_mono (Nat.pow_le_pow_right two_pos (Nat.add_le_add_right h 84))
  rw [G_eq, G_eq]
  omega

theorem G_pos (n : Nat) : 0 < G n :=
  lt_of_lt_of_le (by decide : 0 < G 0) (G_mono n.zero_le)

theorem G_119 : G 119 = 61858 := by decide

/-- The generator fits the 16 bits of an entry for every index up to 119, so for every index of the table. -/
theorem G_lt_of_le_119 {n : Nat} (h : n ≤ 119) : G n < 2 ^ 16 := by
  have := G_mono h
  rw [G_119] at this
  omega

/-- No tie occurs: the twelfth power of an odd number is no power of two (R55). -/
theorem odd_pow_ne_two_pow {a n : Nat} (ha : Odd a) : a ^ 12 ≠ 2 ^ (n + 84) := by
  intro h
  have hodd : Odd (2 ^ (n + 84)) := h ▸ ha.pow
  exact absurd (even_two.pow_of_ne_zero (Nat.succ_ne_zero _)) (Nat.not_even_iff_odd.2 hodd)

/-- The two inequalities of R54 have one positive solution: with `r` the integer root they say `2m - 1 ≤ r ≤ 2m`. -/
theorem eq_G_iff {n m : Nat} (hm : 0 < m) :
    (2 * m - 1) ^ 12 < 2 ^ (n + 84) ∧ 2 ^ (n + 84) < (2 * m + 1) ^ 12 ↔ m = G n := by
  have hodd : Odd (2 * m - 1) := ⟨m - 1, by omega⟩
  have hne := odd_pow_ne_two_pow (n := n) hodd
  rw [lt_iff_le_and_ne, and_iff_left hne, ← le_iroot12_iff, ← iroot12_lt_iff, G_eq]
  omega

/-! R53: the real formula. -/

/-- The number that R53 rounds. -/
noncomputable def formula (n : Nat) : ℝ := (256 : ℝ) * (2 : ℝ) ^ (((n : ℝ) - 24) / 12)

theorem two_mul_formula_pos (n : Nat) : 0 < 2 * formula n := by
  unfold formula
  positivity

/-- Raised to the twelfth power the real root of R53 is a power of two, its exponent moved up to a natural number. -/
theorem two_rpow_pow (n : Nat) : ((2 : ℝ) ^ (((n : ℝ) - 24) / 12)) ^ 12 * 2 ^ 24 = 2 ^ n := by
  rw [← Real.rpow_mul_natCast two_pos.le, ← Real.rpow_natCast 2 24, ← Real.rpow_add two_pos, ← Real.rpow_natCast 2 n]
  congr 1
  push_cast
  ring

/-- The step from the reals to the integers (R54): 2x to the twelfth power is 2^(n + 84). -/
theorem two_mul_formula_pow (n : Nat) : (2 * formula n) ^ 12 = (2 : ℝ) ^ (n + 84) := by
  have hroot := two_rpow_pow n
  unfold formula
  generalize (2 : ℝ) ^ (((n : ℝ) - 24) / 12) = x at hroot ⊢
  calc (2 * (256 * x)) ^ 12 = x ^ 12 * 2 ^ 24 * 2 ^ 84 := by ring
    _ = 2 ^ (n + 84) := by rw [hroot, pow_add]

theorem natCast_le_two_mul_formula {k n : Nat} : (k : ℝ) ≤ 2 * formula n ↔ k ^ 12 ≤ 2 ^ (n + 84) := by
  rw [← pow_le_pow_iff_left₀ k.cast_nonneg (two_mul_formula_pos n).le (Nat.succ_ne_zero 11), two_mul_formula_pow]
  norm_cast

theorem natCast_lt_two_mul_formula {k n : Nat} : (k : ℝ) < 2 * formula n ↔ k ^ 12 < 2 ^ (n + 84) := by
  rw [← pow_lt_pow_iff_left₀ k.cast_nonneg (two_mul_formula_pos n).le (Nat.succ_ne_zero 11), two_mul_formula_pow]
  norm_cast

theorem two_mul_formula_lt_natCast {k n : Nat} : 2 * formula n < k ↔ 2 ^ (n + 84) < k ^ 12 := by
  rw [← not_le, natCast_le_two_mul_formula, not_le]

/-- The generator is strictly within a half of the formula's value, so every rounding to nearest answers it (R55). -/
theorem formula_near_G (n : Nat) : (G n : ℝ) - 1 / 2 < formula n ∧ formula n < G n + 1 / 2 := by
  obtain ⟨hlo, hhi⟩ := (eq_G_iff (G_pos n)).2 rfl
  have hlo' := natCast_lt_two_mul_formula.2 hlo
  have hhi' := two_mul_formula_lt_natCast.2 hhi
  have hpos := G_pos n
  generalize G n = g at *
  push_cast [Nat.cast_sub (show 1 ≤ 2 * g by omega)] at hlo' hhi'
  constructor <;> linarith

/-- Twice the formula truncates to the integer root, so the formula truncates to half of it. -/
theorem floor_formula (n : Nat) : ⌊formula n⌋ = (iroot12 (2 ^ (n + 84)) / 2 : Nat) := by
  have hroot : ⌊2 * formula n⌋ = (iroot12 (2 ^ (n + 84)) : Nat) := by
    obtain ⟨hlo, hhi⟩ := iroot12_spec (2 ^ (n + 84))
    rw [Int.floor_eq_iff]
    exact_mod_cast And.intro (natCast_le_two_mul_formula.2 hlo) (two_mul_formula_lt_natCast.2 hhi)
  calc ⌊formula n⌋ = ⌊2 * formula n / (2 : Nat)⌋ := by
        push_cast
        rw [mul_div_cancel_left₀ _ two_ne_zero]
    _ = (iroot12 (2 ^ (n + 84)) / 2 : Nat) := by
        rw [Int.floor_div_natCast, hroot]
        rfl

end Sys2Proof.Machine

namespace Sys2Proof
open Machine

/-- Settles O34: the read is a function of the ROM, and no step changes the ROM. -/
theorem tableNeverChanges : Obligations.TableNeverChanges := by
  intro s t h
  have hrom := step_rom h
  exact ⟨hrom, fun n => by rw [hrom]⟩

/-- Settles O35: the commands one by one; the entry set in the reset table reads back, so VERIFY meets a wrong entry. -/
theorem commandsReadOnlyTheirEntries : Obligations.CommandsReadOnlyTheirEntries := by
  refine ⟨fun s t m n k hk hm h => exec_lookup_with_rom hk hm h,
    fun s t m e b k hk hm h => exec_lookuprel_with_rom (clampIndex_rawIndex_eq hk) hm h, ?_, fun s t k v hv h => ?_⟩
  · rintro s t m i (rfl | ⟨n, rfl⟩ | ⟨d, rfl⟩) h
    · cases h
      exact exec_nop _
    · exact exec_gen_with_rom m h
    · exact exec_scale_with_rom m h
  · refine exec_verify_cause_of_wrong_entry (k := k) ?_ h
    rwa [tblRead_setEntry_same k v reset_rom_wf]

/-- Settles O38: the formula's value is within a half of the generator. -/
theorem generatorIsTheRoundedFormula : Obligations.GeneratorIsTheRoundedFormula := by
  intro n
  obtain ⟨hlo, hhi⟩ := formula_near_G n
  change (G n : Int) = round (formula n)
  rw [eq_comm, round_eq, Int.floor_eq_iff, Int.cast_natCast]
  generalize (G n : ℝ) = g at *
  constructor <;> linarith

/-- Settles O39: the root by its two inequalities, the generator as their one solution, and its growth for the 16 bits. -/
theorem generatorIsTheUniqueSolution : Obligations.GeneratorIsTheUniqueSolution :=
  ⟨fun _ _ => iroot12_eq_iff, G_eq, fun _ _ => eq_G_iff, fun _ => G_lt_of_le_119, G_119, by decide⟩

/-- Settles O40: within a half strictly on both sides, so there is no tie; the counts are over the 62 indices. -/
theorem roundingHasNoTieButTruncationDiffers : Obligations.RoundingHasNoTieButTruncationDiffers := by
  refine ⟨fun n => ?_, floor_formula, by decide, by decide, by decide, by decide⟩
  obtain ⟨hlo, hhi⟩ := formula_near_G n
  change (G n : Int) = ⌈formula n - 1 / 2⌉
  rw [eq_comm, Int.ceil_eq_iff, Int.cast_natCast]
  generalize (G n : ℝ) = g at *
  constructor <;> linarith

/-- Settles O36: the two addresses are those a read uses. -/
theorem entryIsTwoBytesLittleEndian : Obligations.EntryIsTwoBytesLittleEndian := by
  intro m n lo hi hlo hhi
  rw [tblRead_toNat, fractionAddr_eq hlo, integerAddr_eq hhi]

/-- The table of this hardware holds the generator's values as numbers: they fit an entry (R52, R54). -/
theorem tblRead_reset_toNat (n : NoteIndex) : (tblRead State.reset.rom n).toNat = G n.val := by
  obtain ⟨⟨-, -, -, -, -, hconforms⟩, -⟩ := resetLeavesTheResetValues
  have hn := noteIndex_lt n
  rw [hconforms n, generatedEntry, BitVec.toNat_ofNat, Nat.mod_eq_of_lt (G_lt_of_le_119 (by omega))]

/-- Settles O37: the 62 values by evaluation; the rest by the byte view of an entry that is the generator's. -/
theorem storedTableHoldsTheFormula : Obligations.StoredTableHoldsTheFormula := by
  refine ⟨by decide, fun n => ?_⟩
  have hentry := tblRead_reset_toNat n
  have hbytes := tblRead_toNat State.reset.rom n
  have hfraction := (Memory.readByte State.reset.rom (fractionAddr n)).isLt
  refine ⟨hentry, by omega, by omega, ?_⟩
  rw [rate_mul_256, hentry]

/-- The steps of the table, neighbour by neighbour (R67). -/
theorem tblRead_reset_steps (n : Fin 61) :
    (tblRead State.reset.rom n.castSucc).toNat + 4 ≤ (tblRead State.reset.rom n.succ).toNat ∧
    (tblRead State.reset.rom n.succ).toNat ≤ (tblRead State.reset.rom n.castSucc).toNat + 122 ∧
    ((tblRead State.reset.rom n.succ).toNat = (tblRead State.reset.rom n.castSucc).toNat + 4 ↔ n.val ∈ [0, 1, 2, 4]) ∧
    ((tblRead State.reset.rom n.succ).toNat = (tblRead State.reset.rom n.castSucc).toNat + 122 ↔ n.val = 60) := by
  revert n
  decide

/-- Every step up the table is at least 4, so the table strictly rises (R67). -/
theorem tblRead_reset_strictMono : StrictMono fun n : NoteIndex => (tblRead State.reset.rom n).toNat := by
  refine Fin.strictMono_iff_lt_succ.2 fun n => ?_
  obtain ⟨hstep, -⟩ := tblRead_reset_steps n
  exact Nat.lt_of_lt_of_le (Nat.lt_add_of_pos_right (by decide)) hstep

/-- Settles O41: the anchors by evaluation, the order and the steps from the steps between neighbours. -/
theorem storedTableAnchorsAndOrder : Obligations.StoredTableAnchorsAndOrder := by
  refine ⟨by decide, by decide, by decide, by decide, by decide, by decide, by decide,
    fun n k h => tblRead_reset_strictMono h, fun n k hk => ?_⟩
  have hlast := noteIndex_lt k
  obtain ⟨j, rfl⟩ : ∃ j : Fin 61, n = j.castSucc := ⟨⟨n.val, by omega⟩, rfl⟩
  obtain rfl : k = j.succ := Fin.ext hk
  obtain ⟨hleast, hgreatest, hfour, htop⟩ := tblRead_reset_steps j
  rw [Fin.val_castSucc, ← hfour, ← htop]
  omega

/-- Settles O42: the generator evaluated at the 62 indices. -/
theorem tableIsNotPeriodicUnderDoubling : Obligations.TableIsNotPeriodicUnderDoubling := by
  unfold Obligations.TableIsNotPeriodicUnderDoubling
  decide

end Sys2Proof
end

section
/-! The decoder and the encoder (30_encoding.md sections 1 to 4): a word is a command's word exactly when it decodes to that
command, so a question about a word that decodes is one about its three fields. -/

namespace Sys2Proof

/-! R70: a word by its fields. -/

theorem eq_joinFields_iff {w : Word} {op a b : Byte} :
    w = joinFields op a b ↔ opField w = op ∧ aField w = a ∧ bField w = b := by
  constructor
  · rintro rfl
    simp
  · rintro ⟨rfl, rfl, rfl⟩
    exact (joinFields_fields w).symm

@[simp] theorem opField_and (v w : Word) : opField (v &&& w) = opField v &&& opField w := BitVec.extractLsb'_and
@[simp] theorem aField_and (v w : Word) : aField (v &&& w) = aField v &&& aField w := BitVec.extractLsb'_and
@[simp] theorem bField_and (v w : Word) : bField (v &&& w) = bField v &&& bField w := BitVec.extractLsb'_and

theorem opField_ofNat (n : Nat) : opField (BitVec.ofNat 24 n) = BitVec.ofNat 8 (n / 2 ^ 16) := by
  simp only [opField, ← BitVec.toNat_inj, BitVec.extractLsb'_toNat, BitVec.toNat_ofNat, Nat.shiftRight_eq_div_pow]
  omega

theorem aField_ofNat (n : Nat) : aField (BitVec.ofNat 24 n) = BitVec.ofNat 8 (n / 2 ^ 8) := by
  simp only [aField, ← BitVec.toNat_inj, BitVec.extractLsb'_toNat, BitVec.toNat_ofNat, Nat.shiftRight_eq_div_pow]
  omega

theorem bField_ofNat (n : Nat) : bField (BitVec.ofNat 24 n) = BitVec.ofNat 8 n := by
  simp only [bField, ← BitVec.toNat_inj, BitVec.extractLsb'_toNat, BitVec.toNat_ofNat, Nat.shiftRight_eq_div_pow]
  omega

theorem byte_and_255 (x : Byte) : x &&& 255#8 = x := BitVec.and_allOnes

/-! R74, R75: the encoder and the decoder. -/

theorem decode_encode (i : Instr) : decode (encode i) = .ok i := by
  cases i <;> simp [encode, decode_joinFields, decodeFields]

theorem encode_of_decode {w : Word} {i : Instr} (h : decode w = .ok i) : encode i = w := by
  rw [← joinFields_fields w]
  obtain ⟨hop, ha, hb, rfl⟩ | ⟨hop, hb, rfl⟩ | ⟨hop, rfl⟩ | ⟨hop, hb, rfl⟩ | ⟨hop, ha, hb, rfl⟩ | ⟨hop, hb, rfl⟩ :=
    decodeFields_ok h <;> simp [encode, *]

theorem decode_eq_ok_iff {w : Word} {i : Instr} : decode w = .ok i ↔ w = encode i :=
  ⟨fun h => (encode_of_decode h).symm, fun h => h ▸ decode_encode i⟩

theorem encode_injective : Function.Injective encode := fun i j h => by
  simpa [decode_encode] using congrArg decode h

/-- Settles O1: each command's fields decode to it, and the six cases of the decoder give back the fields. -/
theorem decodeAndEncodeAgree : Obligations.DecodeAndEncodeAgree :=
  ⟨decode_encode, fun _ _ => encode_of_decode⟩

/-- Settles O2: to decode to a command is to have its fields. -/
theorem decoderReadsTheThreeFields : Obligations.DecoderReadsTheThreeFields := by
  intro w
  have oneOperand (op n : Byte) :
      (opField w = op ∧ aField w = n ∧ bField w = 0) ↔ opField w = op ∧ bField w = 0 ∧ n = aField w := by
    rw [and_comm (a := aField w = n), eq_comm (a := n)]
  simp only [decode_eq_ok_iff, encode, eq_joinFields_iff]
  refine ⟨trivial, oneOperand _, fun e b => ?_, oneOperand _, trivial, oneOperand _⟩
  rw [eq_comm (a := e), eq_comm (a := b)]

/-! R74: the six match and mask rows. -/

theorem Instr.row_accepts_encode (i : Instr) : i.row.accepts (encode i) = true := by
  cases i with
  | nop => exact Laws.EncodesInRow.nop.1
  | lookup n => exact (Laws.EncodesInRow.lookup n).1
  | lookuprel e b => exact (Laws.EncodesInRow.lookuprel e b).1
  | gen n => exact (Laws.EncodesInRow.gen n).1
  | verify => exact Laws.EncodesInRow.verify.1
  | scale d => exact (Laws.EncodesInRow.scale d).1

/-- A row masks the fields of a word one by one. -/
theorem OpcodeRow.accepts_iff {r : OpcodeRow} {w : Word} :
    r.accepts w = true ↔
      opField w &&& opField r.mask = opField r.pattern ∧ aField w &&& aField r.mask = aField r.pattern ∧
        bField w &&& bField r.mask = bField r.pattern := by
  rw [OpcodeRow.accepts, beq_iff_eq, ← joinFields_fields r.pattern, eq_joinFields_iff]
  simp

/-- A word of one of the six rows is the word of a command: the operands are the fields the row's mask leaves out. -/
theorem exists_encode_of_accepts {r : OpcodeRow} {w : Word} (hr : r ∈ opcodeRows) (hw : r.accepts w = true) :
    ∃ i, w = encode i := by
  obtain ⟨hop, ha, hb⟩ := OpcodeRow.accepts_iff.1 hw
  simp only [opcodeRows, List.mem_cons, List.not_mem_nil, or_false] at hr
  obtain rfl | rfl | rfl | rfl | rfl | rfl := hr <;>
    simp only [Instr.row, BitVec.ofNat_eq_ofNat, opField_ofNat, aField_ofNat, bField_ofNat, Nat.reducePow, Nat.reduceDiv,
      BitVec.reduceOfNat, byte_and_255] at hop ha hb
  · exact ⟨.nop, eq_joinFields_iff.2 ⟨hop, ha, hb⟩⟩
  · exact ⟨.lookup (aField w), eq_joinFields_iff.2 ⟨hop, rfl, hb⟩⟩
  · exact ⟨.lookuprel (aField w) (bField w), eq_joinFields_iff.2 ⟨hop, rfl, rfl⟩⟩
  · exact ⟨.gen (aField w), eq_joinFields_iff.2 ⟨hop, rfl, hb⟩⟩
  · exact ⟨.verify, eq_joinFields_iff.2 ⟨hop, ha, hb⟩⟩
  · exact ⟨.scale (aField w), eq_joinFields_iff.2 ⟨hop, rfl, hb⟩⟩

/-- Two rows that match one word agree where both masks look. -/
theorem OpcodeRow.pattern_and_mask_of_accepts {r r' : OpcodeRow} {w : Word} (h : r.accepts w = true)
    (h' : r'.accepts w = true) : r.pattern &&& r'.mask = r'.pattern &&& r.mask := by
  rw [OpcodeRow.accepts, beq_iff_eq] at h h'
  rw [← h, ← h', BitVec.and_assoc, BitVec.and_assoc, BitVec.and_comm r.mask]

theorem wordWellFormed_iff {w : Word} : wordWellFormed w = true ↔ ∃ i, w = encode i := by
  rw [wordWellFormed, List.any_eq_true]
  constructor
  · rintro ⟨r, hr, hw⟩
    exact exists_encode_of_accepts hr hw
  · rintro ⟨i, rfl⟩
    exact ⟨i.row, by cases i <;> simp [opcodeRows, Instr.row], i.row_accepts_encode⟩

/-- Settles O3: the words of the six rows are the words of the commands, and any two rows differ where both masks look. -/
theorem legalWordsAreTheOpcodeRows : Obligations.LegalWordsAreTheOpcodeRows := by
  refine ⟨fun w => ?_, fun w i h => ?_, fun w => ?_⟩
  · simp only [wordWellFormed_iff, decode_eq_ok_iff]
  · rw [← encode_of_decode h]
    exact beq_iff_eq.1 i.row_accepts_encode
  · have differ : opcodeRows.Pairwise fun r r' => r.pattern &&& r'.mask ≠ r'.pattern &&& r.mask := by decide
    exact differ.imp fun hne both => hne (OpcodeRow.pattern_and_mask_of_accepts both.1 both.2)

end Sys2Proof
end

section
/-! Illegal words, command bytes and the step (30_encoding.md sections 1, 3 and 4): which words are illegal and how many, what
accepting one does, and the byte form of a word. -/

namespace Sys2Proof
open Machine

/-! R76: the illegal words. -/

/-- The seven kinds of opcode: the six assigned ones and the rest. -/
theorem opcode_cases (op : Byte) : op = 0 ∨ op = 1 ∨ op = 2 ∨ op = 3 ∨ op = 4 ∨ op = 5 ∨ 6 ≤ op.toNat := by
  revert op
  decide

theorem exists_decode_error_iff {w : Word} :
    (∃ e, decode w = .error e) ↔
      6 ≤ (opField w).toNat ∨ ((opField w = 0 ∨ opField w = 4) ∧ (aField w ≠ 0 ∨ bField w ≠ 0)) ∨
        ((opField w = 1 ∨ opField w = 3 ∨ opField w = 5) ∧ bField w ≠ 0) := by
  unfold decode decodeFields
  obtain h | h | h | h | h | h | h := opcode_cases (opField w)
  case inr.inr.inr.inr.inr.inr =>
    have ne (k : Byte) (hk : k.toNat < 6) : opField w ≠ k := by rintro rfl; omega
    simp [h, ne]
  all_goals by_cases ha : aField w = 0#8 <;> by_cases hb : bField w = 0#8 <;> simp [h, ha, hb]

/-- What accepting an illegal word does (R76): the state is written as the masks of STATUS. -/
theorem step_illegalCommand {s : State} {w : Word} {rest : List HostInput} {e : DecodeError}
    (hi : s.inputs = .command w :: rest) (hh : s.halted = false) (hd : decode w = .error e) :
    step s = .next { s with inputs := rest, pos := s.pos + 1, status := (s.status &&& 0x1F) ||| 0x20, finfo := w } := by
  rw [step_command hi hh, execWord_error hd, raise_eq]
  rfl

/-! R76: how many words are legal and illegal. -/

/-- A command is its row and the row's operand bytes. -/
def instrOfOperands : Unit ⊕ Byte ⊕ (Byte × Byte) ⊕ Byte ⊕ Unit ⊕ Byte → Instr
  | .inl () => .nop
  | .inr (.inl n) => .lookup n
  | .inr (.inr (.inl (e, b))) => .lookuprel e b
  | .inr (.inr (.inr (.inl n))) => .gen n
  | .inr (.inr (.inr (.inr (.inl ())))) => .verify
  | .inr (.inr (.inr (.inr (.inr d)))) => .scale d

theorem instrOfOperands_bijective : Function.Bijective instrOfOperands := by
  constructor
  · rintro (_ | _ | ⟨_, _⟩ | _ | _ | _) (_ | _ | ⟨_, _⟩ | _ | _ | _) <;> simp [instrOfOperands]
  · rintro (_ | n | ⟨e, b⟩ | n | _ | d)
    · exact ⟨.inl (), rfl⟩
    · exact ⟨.inr (.inl n), rfl⟩
    · exact ⟨.inr (.inr (.inl (e, b))), rfl⟩
    · exact ⟨.inr (.inr (.inr (.inl n))), rfl⟩
    · exact ⟨.inr (.inr (.inr (.inr (.inl ())))), rfl⟩
    · exact ⟨.inr (.inr (.inr (.inr (.inr d)))), rfl⟩

theorem card_bitVec (n : Nat) : Nat.card (BitVec n) = 2 ^ n := by
  rw [Nat.card_congr BitVec.equivFin.toEquiv, Nat.card_fin]

theorem card_instr : Nat.card Instr = 66306 := by
  rw [← Nat.card_eq_of_bijective _ instrOfOperands_bijective]
  simp only [Nat.card_sum, Nat.card_prod, Nat.card_unique, card_bitVec, Nat.reducePow, Nat.reduceMul, Nat.reduceAdd]

theorem isOk_decode_iff {w : Word} : (decode w).isOk = true ↔ w ∈ Set.range encode := by
  calc (decode w).isOk = true ↔ ∃ i, decode w = .ok i := by cases decode w <;> simp [Except.isOk, Except.toBool]
    _ ↔ w ∈ Set.range encode := by simp only [decode_eq_ok_iff, Set.mem_range, eq_comm (a := w)]

theorem card_legalWords : Nat.card {w : Word // (decode w).isOk = true} = 66306 :=
  calc Nat.card {w : Word // (decode w).isOk = true} = Nat.card (Set.range encode) :=
        Nat.card_congr (Equiv.subtypeEquivRight fun _ => isOk_decode_iff)
    _ = 66306 := by rw [Nat.card_range_of_injective encode_injective, card_instr]

theorem card_illegalWords : Nat.card {w : Word // (decode w).isOk = false} = 16710910 := by
  have hall : Nat.card {w : Word // (decode w).isOk = true} + Nat.card {w : Word // ¬(decode w).isOk = true} = 2 ^ 24 := by
    rw [← Nat.card_sum, Nat.card_congr (Equiv.sumCompl _), card_bitVec]
  simp only [Bool.not_eq_true, card_legalWords] at hall
  omega

/-- Settles O4: the decoder's failing branches, the fault of an accepted word, and the legal words counted as commands. -/
theorem illegalWordsRaiseIllegalCommand : Obligations.IllegalWordsRaiseIllegalCommand :=
  ⟨fun _ => exists_decode_error_iff, fun _ _ _ hi hh ⟨_, hd⟩ => step_illegalCommand hi hh hd, card_legalWords,
    card_illegalWords⟩

/-! R72, R78: the step and the bytes. -/

/-- Settles O8: acceptance runs `execWord`, and a halted block answers a fault. -/
theorem stepRunsTheDecodedInstruction : Obligations.StepRunsTheDecodedInstruction := by
  refine fun s w rest hi => ⟨fun hh i hd => ?_, fun hh e hd => step_illegalCommand hi hh hd, fun hh t ht => ?_⟩
  · rw [step_command hi hh, execWord_ok hd]
    rfl
  · rw [step_command_halted hi hh] at ht
    cases ht

/-- Bytes in front of others are read as the word they make. -/
theorem decodeBytes_wordBytes {w : Word} {i : Instr} (h : decode w = .ok i) (rest : List Byte) :
    decodeBytes (wordBytes w ++ rest) = .ok (i, rest) := by
  rw [decode] at h
  simp only [wordBytes, List.cons_append, List.nil_append, decodeBytes, h]

theorem decodeBytes_short {bytes : List Byte} (h : bytes.length < 3) : decodeBytes bytes = .error .truncated := by
  match bytes with
  | [] | [_] | [_, _] => rfl
  | _ :: _ :: _ :: _ =>
    simp only [List.length_cons] at h
    omega

/-- Settles O5: the three bytes are the fields the decoder reads. -/
theorem commandBytesReadBack : Obligations.CommandBytesReadBack :=
  ⟨fun i => decodeBytes_wordBytes (decode_encode i), fun _ => rfl, fun _ => decodeBytes_short⟩

end Sys2Proof
end

section
/-! The assembler on the lines the printer makes (30_encoding.md section 5): a printed line has no comment and no white space
at its ends, it splits into its mnemonic and its operands, and each operand reads back. -/

namespace Sys2Proof.Machine

/-! Decimal digits. -/

theorem digitValue_digitChar (n : Nat) : digitValue (digitChar n) = some (n % 10) := by
  have table : ∀ k < 10, digitValue (Char.ofNat ('0'.toNat + k)) = some k := by decide
  exact table _ (Nat.mod_lt n (by decide))

/-- A digit is none of the characters an assembler line is cut at. -/
theorem digitChar_not_special (n : Nat) :
    isBlankChar (digitChar n) = false ∧ digitChar n ≠ ';' ∧ digitChar n ≠ ',' ∧ digitChar n ≠ 'x' := by
  have table : ∀ k < 10, isBlankChar (Char.ofNat ('0'.toNat + k)) = false ∧ Char.ofNat ('0'.toNat + k) ≠ ';' ∧
      Char.ofNat ('0'.toNat + k) ≠ ',' ∧ Char.ofNat ('0'.toNat + k) ≠ 'x' := by decide
  exact table _ (Nat.mod_lt n (by decide))

theorem not_special_of_mem_showByte {b : Byte} {c : Char} (h : c ∈ showByte b) :
    isBlankChar c = false ∧ c ≠ ';' ∧ c ≠ ',' ∧ c ≠ 'x' := by
  have hall : ∀ c ∈ showByte b, isBlankChar c = false ∧ c ≠ ';' ∧ c ≠ ',' ∧ c ≠ 'x' := by
    simp only [showByte]
    split_ifs <;> simp [digitChar_not_special]
  exact hall c h

theorem showByte_ne_nil (b : Byte) : showByte b ≠ [] := by
  simp only [showByte]
  split_ifs <;> simp

theorem showByte_not_blank {b : Byte} {c : Char} (h : c ∈ showByte b) : isBlankChar c = false :=
  (not_special_of_mem_showByte h).1

theorem comma_not_mem_showByte (b : Byte) : ',' ∉ showByte b := fun h => by
  simpa using not_special_of_mem_showByte h

theorem semicolon_not_mem_showByte (b : Byte) : ';' ∉ showByte b := fun h => by
  simpa using not_special_of_mem_showByte h

/-- The digits of a byte read back: the remainders by 10 make the number again. -/
theorem readDigits_showByte (b : Byte) : readDigits 10 (showByte b) 0 = some b.toNat := by
  have hb := b.isLt
  have hmod (n : Nat) : n % 10 < 10 := Nat.mod_lt n (by decide)
  simp only [showByte]
  split_ifs <;> simp only [readDigits, digitValue_digitChar, hmod, if_true, Option.some.injEq] <;> omega

theorem readNumeral_showByte (b : Byte) : readNumeral (showByte b) = some b.toNat := by
  have notHex : (showByte b).take 2 ≠ ['0', 'x'] := fun h => by
    have hx : 'x' ∈ (showByte b).take 2 := by simp [h]
    simpa using not_special_of_mem_showByte (List.mem_of_mem_take hx)
  rw [readNumeral, if_neg notHex, readSomeDigits, if_neg (showByte_ne_nil b), readDigits_showByte]

/-! White space and the separator. -/

theorem trimFront_eq_self {cs : List Char} (h : ∀ c ∈ cs.head?, isBlankChar c = false) : trimFront cs = cs := by
  cases cs with
  | nil => rfl
  | cons c cs => exact List.dropWhile_cons_of_neg (by simp [h c rfl])

theorem trimFront_space (cs : List Char) : trimFront (' ' :: cs) = trimFront cs := rfl

theorem trimBlank_eq_self {cs : List Char} (hfirst : ∀ c ∈ cs.head?, isBlankChar c = false)
    (hlast : ∀ c ∈ cs.getLast?, isBlankChar c = false) : trimBlank cs = cs := by
  rw [trimBlank, trimFront_eq_self hfirst, trimFront_eq_self (by simpa using hlast), List.reverse_reverse]

theorem splitOnChar_of_not_mem {sep : Char} {p : List Char} (h : sep ∉ p) : splitOnChar sep p = [p] := by
  induction p with
  | nil => rfl
  | cons c cs ih =>
    obtain ⟨hc, hcs⟩ := List.ne_and_not_mem_of_not_mem_cons h
    simp [splitOnChar, Ne.symm hc, ih hcs]

theorem splitOnChar_append {sep : Char} {p : List Char} (h : sep ∉ p) (q : List Char) :
    splitOnChar sep (p ++ sep :: q) = p :: splitOnChar sep q := by
  induction p with
  | nil => simp [splitOnChar]
  | cons c cs ih =>
    obtain ⟨hc, hcs⟩ := List.ne_and_not_mem_of_not_mem_cons h
    simp [splitOnChar, Ne.symm hc, ih hcs]

/-! Operands. -/

theorem trimFront_showByte_append (b : Byte) (cs : List Char) : trimFront (showByte b ++ cs) = showByte b ++ cs := by
  apply trimFront_eq_self
  intro c hc
  rw [List.head?_append_of_ne_nil _ (showByte_ne_nil b)] at hc
  exact showByte_not_blank (List.mem_of_mem_head? hc)

theorem readOperand_showByte (b : Byte) : readOperand (showByte b) = .ok b := by
  have htrim : trimBlank (showByte b) = showByte b :=
    trimBlank_eq_self (fun _ hc => showByte_not_blank (List.mem_of_mem_head? hc))
      (fun _ hc => showByte_not_blank (List.mem_of_mem_getLast? hc))
  simp [readOperand, htrim, readNumeral_showByte, b.isLt]

theorem readOperand_space (cs : List Char) : readOperand (' ' :: cs) = readOperand cs := rfl

theorem asmOperands_oneByte (b : Byte) : asmOperands (' ' :: showByte b) = [showByte b] := by
  have htrim := trimFront_showByte_append b []
  rw [List.append_nil] at htrim
  rw [asmOperands, trimFront_space, htrim, if_neg (showByte_ne_nil b), splitOnChar_of_not_mem (comma_not_mem_showByte b)]

theorem asmOperands_twoBytes (e b : Byte) :
    asmOperands (' ' :: (showByte e ++ ',' :: ' ' :: showByte b)) = [showByte e, ' ' :: showByte b] := by
  rw [asmOperands, trimFront_space, trimFront_showByte_append, if_neg (by simp),
    splitOnChar_append (comma_not_mem_showByte e), splitOnChar_of_not_mem (by simp [comma_not_mem_showByte b])]

/-- A mnemonic with the operands printed for it is the command. -/
theorem asmCommand_showOperands (i : Instr) : asmCommand (mnemonicChars i) (asmOperands (showOperands i)) = .ok i := by
  cases i with
  | nop | verify => rfl
  | lookup n | gen n | scale n =>
    rw [showOperands, asmOperands_oneByte]
    simp [asmCommand, mnemonicChars, asmOne, readOperand_showByte]
  | lookuprel e b =>
    rw [showOperands, asmOperands_twoBytes]
    simp [asmCommand, mnemonicChars, asmTwo, readOperand_showByte, readOperand_space]

/-! The printed line. -/

theorem mnemonicChars_ne_nil (i : Instr) : mnemonicChars i ≠ [] := by
  cases i <;> simp [mnemonicChars]

theorem mnemonicChars_not_special {i : Instr} {c : Char} (h : c ∈ mnemonicChars i) : isBlankChar c = false ∧ c ≠ ';' := by
  revert c
  cases i <;> simp [mnemonicChars, isBlankChar]

/-- What is printed after the mnemonic begins with a space and ends in a numeral, if it is there at all. -/
theorem showOperands_cases (i : Instr) :
    showOperands i = [] ∨ ∃ front b, showOperands i = ' ' :: (front ++ showByte b) := by
  cases i with
  | nop | verify => exact .inl rfl
  | lookup n | gen n | scale n => exact .inr ⟨[], n, rfl⟩
  | lookuprel e b => exact .inr ⟨showByte e ++ [',', ' '], b, by simp [showOperands]⟩

theorem semicolon_not_mem_showInstr (i : Instr) : ';' ∉ showInstr i := by
  cases i <;> simp [showInstr, mnemonicChars, showOperands, semicolon_not_mem_showByte]

theorem stripComment_showInstr (i : Instr) : stripComment (showInstr i) = showInstr i := by
  refine List.takeWhile_eq_self_iff.2 fun c hc => bne_iff_ne.2 ?_
  rintro rfl
  exact semicolon_not_mem_showInstr i hc

theorem trimBlank_showInstr (i : Instr) : trimBlank (showInstr i) = showInstr i := by
  apply trimBlank_eq_self
  · intro c hc
    rw [showInstr, List.head?_append_of_ne_nil _ (mnemonicChars_ne_nil i)] at hc
    exact (mnemonicChars_not_special (List.mem_of_mem_head? hc)).1
  · intro c hc
    obtain h | ⟨front, b, h⟩ := showOperands_cases i
    · rw [showInstr, h, List.append_nil] at hc
      exact (mnemonicChars_not_special (List.mem_of_mem_getLast? hc)).1
    · have hline : showInstr i = (mnemonicChars i ++ ' ' :: front) ++ showByte b := by simp [showInstr, h]
      rw [hline, List.getLast?_append_of_ne_nil _ (showByte_ne_nil b)] at hc
      exact showByte_not_blank (List.mem_of_mem_getLast? hc)

/-- The first word of a printed line is its mnemonic, and the rest is what was printed after it. -/
theorem firstWord_showInstr (i : Instr) :
    (showInstr i).takeWhile (fun c => !isBlankChar c) = mnemonicChars i ∧
      (showInstr i).dropWhile (fun c => !isBlankChar c) = showOperands i := by
  have hword : ∀ c ∈ mnemonicChars i, (!isBlankChar c) = true := fun c hc => by
    simp [(mnemonicChars_not_special hc).1]
  rw [showInstr, List.takeWhile_append_of_pos hword, List.dropWhile_append_of_pos hword]
  obtain h | ⟨front, b, h⟩ := showOperands_cases i <;> simp [h, isBlankChar]

end Sys2Proof.Machine

namespace Sys2Proof
open Machine

/-- Settles O7: the printed line is already trimmed, and its two parts make the command. -/
theorem assemblerReadsBackPrintedCommands : Obligations.AssemblerReadsBackPrintedCommands := by
  intro i
  obtain ⟨hmnemonic, hoperands⟩ := firstWord_showInstr i
  have hne : showInstr i ≠ [] := by simp [showInstr, mnemonicChars_ne_nil]
  rw [assembleLine, stripComment_showInstr, trimBlank_showInstr, assembleTrimmed, if_neg hne, hmnemonic, hoperands,
    asmCommand_showOperands]

end Sys2Proof
end

section
/-! The lookup commands (40_lookup.md R90 to R93): LOOKUPREL in terms of the index that the clamp gives, and the statements
about the three commands that make a lookup. -/

namespace Sys2Proof.Machine

/-- LOOKUPREL writes back the entry of the clamped index, and CL says whether the clamp changed the index (R92). -/
theorem exec_lookuprel_clamped {e b : Byte} {k : NoteIndex}
    (hk : (k.val : Int) = max 0 (min 61 ((e.toNat : Int) - b.toNat + 24))) (s : State) :
    exec (.lookuprel e b) s =
      .next (writeMult k (tblRead s.rom k) ((k.val : Int) != (e.toNat : Int) - b.toNat + 24) s) := by
  rw [exec_lookuprel, wasClamped, clampIndex_rawIndex_eq hk]
  rfl

/-- The write-back when the clamp changes the index: CL is set (R92). -/
theorem exec_lookuprel_atEnd {e b : Byte} {k : NoteIndex}
    (hk : (k.val : Int) = max 0 (min 61 ((e.toNat : Int) - b.toNat + 24)))
    (hr : (k.val : Int) ≠ (e.toNat : Int) - b.toNat + 24) (s : State) :
    exec (.lookuprel e b) s = .next { s with idx := BitVec.ofNat 6 k.val, mult := tblRead s.rom k, prod := 0, status := (s.status &&& 0xF0) ||| 0x03 } := by
  rw [exec_lookuprel_clamped hk, bne_iff_ne.2 hr, writeMult_eq, if_pos rfl]

/-- The write-back when the clamp leaves the index alone: CL is 0 (R92). -/
theorem exec_lookuprel_inRange {e b : Byte} {k : NoteIndex} (hr : (e.toNat : Int) - b.toNat + 24 = k.val) (s : State) :
    exec (.lookuprel e b) s = .next { s with idx := BitVec.ofNat 6 k.val, mult := tblRead s.rom k, prod := 0, status := (s.status &&& 0xF0) ||| 0x01 } := by
  have hlt := noteIndex_lt k
  rw [exec_lookuprel_clamped (k := k) (by omega), hr, bne_self_eq_false, writeMult_eq, if_neg Bool.false_ne_true]

end Sys2Proof.Machine

namespace Sys2Proof
open Machine

/-- Settles O19: an operand in range names its entry, and any other raises IndexOutOfRange. -/
theorem lookupLoadsTheEntryOrFaults : Obligations.LookupLoadsTheEntryOrFaults := by
  refine ⟨fun n => decode_encode (.lookup n), fun s n k _ hk => ?_, fun s n _ hn => ?_, fun s t n _ hn h => ?_,
    by decide, by decide, by decide, ?_⟩
  · rw [exec_lookup_inRange hk, writeMult_eq, if_neg Bool.false_ne_true]
  · rw [exec_lookup_outOfRange hn, raise_eq]
    rfl
  · rw [exec_lookup_outOfRange hn] at h
    cases h
    exact raise_halted ..
  · rw [exec_lookup_inRange (n := 24) (k := 24) rfl]
    exact congrArg Host.Outcome.next (by decide)

/-- Settles O20: the clamped index is `r` itself in range, 0 below it and 61 above it. -/
theorem lookuprelClampsTheRelativeIndex : Obligations.LookuprelClampsTheRelativeIndex := by
  refine ⟨fun e b => decode_encode (.lookuprel e b), fun s e b k _ hr => exec_lookuprel_inRange hr s,
    fun s e b _ hr => ?_, fun s e b _ hr => ?_, rawIndex_range, by decide, ?_⟩
  · have hk : ((0 : NoteIndex).val : Int) = 0 := rfl
    exact exec_lookuprel_atEnd (k := 0) (by omega) (by omega) s
  · have hk : ((61 : NoteIndex).val : Int) = 61 := rfl
    exact exec_lookuprel_atEnd (k := 61) (by omega) (by omega) s
  · rw [exec_lookuprel_inRange (e := 48) (b := 24) (k := 48) rfl]
    exact congrArg Host.Outcome.next (by decide)

/-- Settles O21: both commands write back the entry of one index, each with its own CL. -/
theorem lookuprelIsLookupOfTheClampedIndex : Obligations.LookuprelIsLookupOfTheClampedIndex := by
  intro s e b n _ hn
  have hlt : n.toNat < Config.tableSize := by simp only [Config.tableSize]; omega
  obtain ⟨k, hk⟩ : ∃ k : NoteIndex, n.toNat = k.val := ⟨⟨n.toNat, hlt⟩, rfl⟩
  rw [hk] at hn ⊢
  refine ⟨_, _, exec_lookuprel_clamped hn s, exec_lookup_inRange hk s, rfl, ?_, writeMult_cl .., ?_⟩
  · rw [writeMult_status, writeMult_status, statusAfterLookup_and_FD, statusAfterLookup_and_FD]
  · rw [writeMult_cl, bne_iff_ne]

/-- Settles O25: a lookup command that completes has written back one result, since a fault would halt the block. -/
theorem completedLookupsShareOneWriteBack : Obligations.CompletedLookupsShareOneWriteBack := by
  intro i s t hi _ h ht
  obtain ⟨k, m, cl, effect⟩ | ⟨c, info, effect⟩ := lookup_effect_of_rom hi s.rom
  · rw [effect s rfl] at h
    cases h
    exact ⟨k, m, cl, rfl, by simp⟩
  · rw [effect s rfl] at h
    cases h
    simp at ht

end Sys2Proof
end

section
/-! The generator commands (41_generate.md R100 to R104): GEN against LOOKUP on a right and a wrong entry, what VERIFY finds,
and which tables make cause 4 reachable. -/

namespace Sys2Proof.Machine

/-! R101: GEN and LOOKUP over one entry. -/

/-- An operand up to 61 is a note index. -/
theorem exists_noteIndex_of_le {n : Byte} (h : n.toNat ≤ 61) : ∃ k : NoteIndex, n.toNat = k.val :=
  ⟨⟨n.toNat, Nat.lt_succ_of_le h⟩, rfl⟩

theorem exec_gen_eq_lookup {s : State} {n : Byte} {k : NoteIndex} (hk : n.toNat = k.val)
    (h : tblRead s.rom k = generatedEntry k.val) : exec (.gen n) s = exec (.lookup n) s := by
  rw [exec_gen_inRange hk, exec_lookup_inRange hk, h]

/-- On a wrong entry GEN and LOOKUP write back two multipliers and agree in everything else. -/
theorem exec_gen_ne_lookup {s : State} {n : Byte} {k : NoteIndex} (hk : n.toNat = k.val)
    (h : tblRead s.rom k ≠ generatedEntry k.val) :
    ∃ t u, exec (.gen n) s = .next t ∧ exec (.lookup n) s = .next u ∧ t.mult ≠ u.mult ∧ t = { u with mult := t.mult } :=
  ⟨_, _, exec_gen_inRange hk s, exec_lookup_inRange hk s, h.symm, rfl⟩

/-! R102, R104: VERIFY and the contents of the table. -/

/-- The table this hardware is built with conforms (R52). -/
theorem romConforms_reset : RomConforms State.reset.rom := by
  obtain ⟨⟨-, -, -, -, -, hconforms⟩, -⟩ := resetLeavesTheResetValues
  exact hconforms

/-- With one entry of the built table replaced by a wrong value, that entry is the mismatch found. -/
theorem firstMismatch_setEntry_reset {k : NoteIndex} {v : Entry} (hv : v ≠ generatedEntry k.val) :
    firstMismatch (Memory.setEntry State.reset.rom k v) = some k := by
  refine (firstMismatch_some _ _).2 ⟨?_, fun j hj => ?_⟩
  · rwa [tblRead_setEntry_same k v reset_rom_wf]
  · rw [tblRead_setEntry_other k j v hj.ne']
    exact romConforms_reset j

/-- On a conforming table no command makes CAUSE 4: a command that faults records another cause (R104, R160). -/
theorem exec_cause_four {i : Instr} {s t : State} (hrom : RomConforms s.rom) (h : exec i s = .next t)
    (ht : t.cause = 4) : s.cause = 4 := by
  cases i with
  | nop =>
    cases h
    exact ht
  | lookup n =>
    obtain ⟨k, -, rfl⟩ | ⟨-, rfl⟩ := exec_lookup_cases h
    · rwa [writeMult_cause] at ht
    · simp [FaultCause.code] at ht
  | lookuprel e b =>
    cases h
    rwa [writeMult_cause] at ht
  | gen n =>
    obtain ⟨k, -, rfl⟩ | ⟨-, rfl⟩ := exec_gen_cases h
    · rwa [writeMult_cause] at ht
    · simp [FaultCause.code] at ht
  | verify =>
    rw [exec_verify_conforming hrom] at h
    cases h
    rwa [setVerified_cause] at ht
  | scale d =>
    obtain ⟨-, rfl⟩ | ⟨-, rfl⟩ := exec_scale_cases h
    · rwa [writeProd_cause] at ht
    · simp [FaultCause.code] at ht

/-- On a conforming table no step makes CAUSE 4 (R104). -/
theorem step_cause_four {s t : State} (hrom : RomConforms s.rom) (h : step s = .next t) (ht : t.cause = 4) :
    s.cause = 4 := by
  obtain ⟨-, -, rfl⟩ | ⟨w, rest, -, -, executed | illegal⟩ | ⟨p, rest, -, rfl⟩ | ⟨r, v, rest, -, rfl⟩ | ⟨rest, -, rfl⟩ :=
    step_next_cases h
  · exact ht
  · obtain ⟨i, -, hx⟩ := executed
    exact exec_cause_four (s := acceptCommand rest s) hrom hx ht
  · obtain ⟨e, -, rfl⟩ := illegal
    simp [FaultCause.code] at ht
  · simp at ht
  · exact ht
  · exact ht

end Sys2Proof.Machine

namespace Sys2Proof
open Machine

/-- Settles O22: an operand in range writes back the formula's entry, and any other raises IndexOutOfRange; LOOKUP writes
back the table's entry and does the same otherwise. -/
theorem genLoadsTheGeneratedEntryOrFaults : Obligations.GenLoadsTheGeneratedEntryOrFaults := by
  refine ⟨fun n => decode_encode (.gen n), fun s n _ hn => ?_, fun s n _ hn => ?_,
    fun s n k _ hk => ⟨exec_gen_eq_lookup hk, exec_gen_ne_lookup hk⟩,
    by decide, by decide, by decide, by decide, by decide, ?_⟩
  · obtain ⟨k, hk⟩ := exists_noteIndex_of_le hn
    rw [exec_gen_inRange hk, writeMult_eq, if_neg Bool.false_ne_true, hk]
    rfl
  · rw [exec_gen_outOfRange hn, raise_eq]
    rfl
  · rw [exec_gen_inRange (n := 36) (k := 36) rfl]
    exact congrArg Host.Outcome.next (by decide)

/-- Settles O23: VERIFY raises TableMismatch with the lowest wrong index, and sets VF when there is none. -/
theorem verifyComparesTheWholeTable : Obligations.VerifyComparesTheWholeTable := by
  refine ⟨decode_encode .verify, fun s _ hrom => ?_, fun s n _ hn hbelow => ?_, ?_⟩
  · rw [exec_verify_conforming hrom, setVerified, statusAfterVerify_mask]
  · rw [exec_verify_mismatch ((firstMismatch_some s.rom n).2 ⟨hn, hbelow⟩), raise_eq, mismatchInfo_eq]
    rfl
  · rw [exec_verify_conforming romConforms_reset]
    exact congrArg Host.Outcome.next (by decide)

/-- Settles O43: no command faults with cause 4 on a conforming table; over one wrong entry the lookups read it, GEN does not,
and VERIFY finds it. -/
theorem tableContentsAreAParameter : Obligations.TableContentsAreAParameter := by
  refine ⟨fun s t => step_cause_four, fun s k v n e b _ hk hr hrom hv => ?_⟩
  have hread : tblRead s.rom k = v := by rw [hrom, tblRead_setEntry_same k v reset_rom_wf]
  have hfound : firstMismatch s.rom = some k := by rw [hrom, firstMismatch_setEntry_reset hv]
  exact ⟨_, _, _, _, exec_lookup_inRange hk s, hread, exec_lookuprel_inRange hr s, hread, exec_gen_inRange hk s, rfl,
    exec_verify_mismatch hfound, raise_cause .., mismatchInfo_eq k⟩

end Sys2Proof
end

section
/-! The scaler (42_scale.md R110 to R114): what a completed SCALE leaves in PROD and TR, and the multipliers that a
conforming table gives it. -/

namespace Sys2Proof.Machine

/-- A SCALE that found a multiplier has written the exact product (R111). -/
theorem exec_scale_eq_writeProd {s t : State} {d : Byte} (hmv : s.mv = true) (h : exec (.scale d) s = .next t) :
    t = writeProd (product d s.mult) s := by
  rw [exec_scale_valid hmv] at h
  cases h
  rfl

theorem exec_scale_prod_toNat {s t : State} {d : Byte} (hmv : s.mv = true) (h : exec (.scale d) s = .next t) :
    t.prod.toNat = d.toNat * s.mult.toNat := by
  rw [exec_scale_eq_writeProd hmv h]
  exact product_exact d s.mult

theorem exec_scale_tr_iff {s t : State} {d : Byte} (hmv : s.mv = true) (h : exec (.scale d) s = .next t) :
    t.tr = true ↔ 65536 ≤ d.toNat * s.mult.toNat := by
  rw [exec_scale_eq_writeProd hmv h, writeProd_tr]
  exact truncationLost_iff _ (product_lt d s.mult)

/-- PROD_INT is 0 exactly for products below one (R23, R114). -/
theorem exec_scale_prodInt_eq_zero_iff {s t : State} {d : Byte} (hmv : s.mv = true)
    (h : exec (.scale d) s = .next t) : t.prodInt = 0 ↔ d.toNat * s.mult.toNat < 256 := by
  rw [← BitVec.toNat_inj, prodInt_toNat, exec_scale_prod_toNat hmv h, BitVec.ofNat_eq_ofNat, BitVec.toNat_zero]
  omega

/-- Bits 23:20 of a word are 0 when it is below 2^20. -/
theorem extractLsb'_20_eq_zero {w : Word} (h : w.toNat < 2 ^ 20) : w.extractLsb' 20 4 = 0 := by
  rw [← BitVec.toNat_inj, BitVec.extractLsb'_toNat, Nat.shiftRight_eq_div_pow, Nat.div_eq_of_lt h]
  rfl

/-! The multipliers of a conforming table (R52, R114). -/

theorem generatedEntry_toNat (n : NoteIndex) : (generatedEntry n.val).toNat = G n.val := by
  rw [← romConforms_reset n, tblRead_reset_toNat]

/-- The range of the generator over the indices of the table. -/
theorem G_bounds {n : Nat} (h : n ≤ 61) : 0x0040 ≤ G n ∧ G n ≤ 0x087A := by
  have hfirst : G 0 = 0x0040 := by decide
  have hlast : G 61 = 0x087A := by decide
  exact ⟨hfirst ▸ G_mono n.zero_le, hlast ▸ G_mono h⟩

/-- The generator is at most one, in units of 1/256, exactly up to the unity index. -/
theorem G_le_unity_iff {n : Nat} : G n ≤ 0x0100 ↔ n ≤ 24 := by
  have hunity : G 24 = 0x0100 := by decide
  have hnext : G 25 = 0x010F := by decide
  constructor
  · intro h
    by_contra hn
    have hmono : G 25 ≤ G n := G_mono (Nat.lt_of_not_le hn)
    omega
  · exact fun h => hunity ▸ G_mono h

end Sys2Proof.Machine

namespace Sys2Proof
open Machine

/-- On a conforming table a valid multiplier is the generator's value at IDX (R36 (b), R52). -/
theorem Inv.mult_toNat_eq_G {s : State} (hs : Inv s) (hrom : RomConforms s.rom) (hmv : s.mv = true) :
    s.mult.toNat = G s.idx.toNat := by
  obtain ⟨n, hidx, hmult⟩ := hs.mult_of_mv hmv
  rw [hrom n, or_self] at hmult
  rw [hmult, hidx, generatedEntry_toNat]

/-- Settles O24: SCALE writes the exact product when MV holds and raises MultiplierNotValid when it does not. -/
theorem scaleMultipliesExactlyOrFaults : Obligations.ScaleMultipliesExactlyOrFaults := by
  refine ⟨fun d => decode_encode (.scale d), fun s d _ hmv => ?_, fun s d => product_exact d s.mult,
    fun s d _ hmv => ?_, fun s t d _ hmv h => ?_, by decide, ?_⟩
  · rw [exec_scale_valid hmv, writeProd_eq]
    rfl
  · rw [exec_scale_invalid hmv, raise_eq]
    rfl
  · rw [prodInt_toNat, div8_toNat, prodFrac_toNat, exec_scale_prod_toNat hmv h]
    exact ⟨rfl, rfl, rfl⟩
  · rw [exec_scale_valid (by decide)]
    exact congrArg Host.Outcome.next (by decide)

/-- Settles O28: MULT is a value of the generator, which bounds it; the product is exact, which bounds PROD. -/
theorem conformingProductsStayInRange : Obligations.ConformingProductsStayInRange := by
  intro s t d hs hrom _ hmv h
  have hG := hs.mult_toNat_eq_G hrom hmv
  obtain ⟨hlow, hhigh⟩ : 0x0040 ≤ s.mult.toNat ∧ s.mult.toNat ≤ 0x087A := hG ▸ G_bounds hs.idx_le
  have hd : d.toNat ≤ 255 := Nat.le_of_lt_succ d.isLt
  have hprod : t.prod.toNat ≤ 255 * 0x087A := exec_scale_prod_toNat hmv h ▸ Nat.mul_le_mul hd hhigh
  have htr := exec_scale_tr_iff hmv h
  have hint := exec_scale_prodInt_eq_zero_iff hmv h
  refine ⟨hlow, hhigh, hprod, extractLsb'_20_eq_zero (by omega), htr, hG ▸ G_le_unity_iff, fun hm => ?_,
    fun hm => ?_, fun hm => ?_, fun hm => ?_, hint, fun hm => ?_⟩
  · have hsmall : d.toNat * s.mult.toNat ≤ 255 * 0x0100 := Nat.mul_le_mul hd hm
    rw [← Bool.not_eq_true, htr]
    omega
  · rw [htr, hm]; bv_omega
  · rw [htr, hm]; bv_omega
  · rw [htr, hm]; bv_omega
  · rw [hint, hm]; bv_omega

end Sys2Proof
end

section
/-! NOP (43_system.md R120): its one word, and the other words of its opcode. -/

namespace Sys2Proof
open Machine

theorem encode_nop : encode .nop = 0x000000 := rfl

/-- A word of NOP's opcode other than 0 has an operand byte that is not zero, so it is illegal (R76, R120). -/
theorem decode_error_of_opField_zero {w : Word} (hop : opField w = 0x00) (hw : w ≠ 0x000000) :
    ∃ e, decode w = .error e := by
  have hbytes : aField w ≠ 0 ∨ bField w ≠ 0 := not_and_or.1 fun ⟨ha, hb⟩ => hw (eq_joinFields_iff.2 ⟨hop, ha, hb⟩)
  exact exists_decode_error_iff.2 (.inr (.inl ⟨.inl hop, hbytes⟩))

/-- Settles O18: NOP's arm is the identity, its word is its encoding, and every other word of its opcode fails to decode. -/
theorem nopChangesNothing : Obligations.NopChangesNothing := by
  refine ⟨fun s _ => exec_nop s, fun w => ?_, fun s w rest hi hh hop hw => ?_, fun s rest hi hh t ht => ?_⟩
  · rw [decode_eq_ok_iff, encode_nop]
  · obtain ⟨e, he⟩ := decode_error_of_opField_zero hop hw
    exact ⟨_, (step_command hi hh).trans (execWord_error he _), raise_cause ..⟩
  · rw [step_command_halted hi hh] at ht
    cases ht

end Sys2Proof
end

section
/-! The sound chip and Initialize (48_env_chip_initializer.md R130 to R154): what a write changes, the registers that
Initialize ends in whatever the chip held before, and the order of its writes. -/

namespace Sys2Proof.Machine

/-! One write. -/

theorem ChipRegs.get_set_other (c : ChipRegs) {r r' : ChipReg} (v : Byte) (h : r' ≠ r) :
    (c.set r v).get r' = c.get r' := by
  cases r with
  | voiceControl x =>
    cases r' with
    | voiceControl y => exact PerVoice.get_set_other _ _ _ _ fun hy => h (congrArg _ hy)
    | _ => rfl
  | frequencyDivisor x =>
    cases r' with
    | frequencyDivisor y => exact PerVoice.get_set_other _ _ _ _ fun hy => h (congrArg _ hy)
    | _ => rfl
  | _ => cases r' <;> simp_all [ChipRegs.set, ChipRegs.get]

/-- Writes to other registers leave a register alone. -/
theorem Chip.get_writeAll_of_not_written (c : Chip) {ws : List ChipWrite} {r : ChipReg} (h : ∀ w ∈ ws, w.reg ≠ r) :
    (c.writeAll ws).regs.get r = c.regs.get r := by
  induction ws generalizing c with
  | nil => rfl
  | cons w ws ih =>
    obtain ⟨hw, hws⟩ := List.forall_mem_cons.1 h
    exact (ih (c.write w) hws).trans (c.regs.get_set_other w.value hw.symm)

/-! The four writes of one value to the voices (R143, R144). -/

theorem PerVoice.get_const (b : Byte) (v : Voice) : (PerVoice.const b).get v = b := by
  cases v <;> rfl

theorem PerVoice.foldl_set_eq_const {vs : List Voice} (h : ∀ v, v ∈ vs) (b : Byte) (p : PerVoice) :
    vs.foldl (fun r x => r.set x b) p = .const b :=
  PerVoice.ext_get fun v => by rw [PerVoice.get_foldl_set, if_pos (h v), PerVoice.get_const]

theorem Chip.writeAll_voiceControl_regs (c : Chip) {vs : List Voice} (h : ∀ v, v ∈ vs) (b : Byte) :
    (c.writeAll (vs.map fun v => ⟨.voiceControl v, b⟩)).regs = { c.regs with voiceControl := .const b } := by
  rw [Chip.writeAll_regs, List.foldl_map, ← PerVoice.foldl_set_eq_const h b c.regs.voiceControl]
  exact List.foldl_hom (fun q => { c.regs with voiceControl := q }) (g₁ := fun q v => q.set v b)
    (g₂ := fun r v => r.set (.voiceControl v) b) fun _ _ => rfl

theorem Chip.writeAll_frequencyDivisor_regs (c : Chip) {vs : List Voice} (h : ∀ v, v ∈ vs) (b : Byte) :
    (c.writeAll (vs.map fun v => ⟨.frequencyDivisor v, b⟩)).regs = { c.regs with frequencyDivisor := .const b } := by
  rw [Chip.writeAll_regs, List.foldl_map, ← PerVoice.foldl_set_eq_const h b c.regs.frequencyDivisor]
  exact List.foldl_hom (fun q => { c.regs with frequencyDivisor := q }) (g₁ := fun q v => q.set v b)
    (g₂ := fun r v => r.set (.frequencyDivisor v) b) fun _ _ => rfl

end Sys2Proof.Machine

namespace Sys2Proof
open Machine

/-! The parameters (R153). -/

theorem voiceOrderWellFormed_iff {l : List Voice} : voiceOrderWellFormed l = true ↔ l.Perm Voice.all :=
  List.isPerm_iff

theorem InitParams.wellFormed_iff {p : InitParams} : p.wellFormed = true ↔
    (p.voiceSilent &&& 0x0F = 0 ∧ p.voiceSilent ≠ 0 ∧ p.skctlNormal ≠ 0) ∧
      p.voiceOrder.Perm Voice.all ∧ p.divisorOrder.Perm Voice.all := by
  simp [InitParams.wellFormed, voiceOrderWellFormed_iff, and_assoc]

theorem Voice.mem_of_perm_all {l : List Voice} (h : l.Perm Voice.all) (v : Voice) : v ∈ l :=
  h.mem_iff.2 (by cases v <;> decide)

/-! The registers Initialize ends in (R154). -/

/-- The configured registers with some interrupt mask: 0 after step 7 of Initialize, `irqMask` after step 8. -/
def InitParams.configured (p : InitParams) (mask : Byte) : ChipRegs where
  interruptEnableMask   := mask
  systemControl         := p.skctlNormal
  voiceControl          := .const p.voiceSilent
  frequencyDivisor      := .const p.audf1Val
  audioControlConfig    := p.audctlVal
  auxPlaybackState      := p.auxInit
  countersDeterministic := true

theorem writeAll_initializeBody_regs {p : InitParams} (hp : p.wellFormed = true) (c : Chip) :
    (c.writeAll (initializeBody p)).regs = p.configured 0 := by
  obtain ⟨-, hvoices, hdivisors⟩ := InitParams.wellFormed_iff.1 hp
  rw [initializeBody, Chip.writeAll_append, Chip.writeAll_append, Chip.writeAll_append, Chip.writeAll_regs,
    Chip.writeAll_frequencyDivisor_regs _ (Voice.mem_of_perm_all hdivisors),
    Chip.writeAll_voiceControl_regs _ (Voice.mem_of_perm_all hvoices), Chip.writeAll_regs]
  simp [ChipRegs.set, InitParams.configured]

theorem writeAll_initializeLog_regs {p : InitParams} (hp : p.wellFormed = true) (c : Chip) :
    (c.writeAll (initializeLog p)).regs = p.configured p.irqMask := by
  rw [initializeLog, Chip.writeAll_append, Chip.writeAll_regs, writeAll_initializeBody_regs hp]
  rfl

theorem writeAll_initializeLog_twice_regs {p : InitParams} (hp : p.wellFormed = true) (c : Chip) :
    ((c.writeAll (initializeLog p)).writeAll (initializeLog p)).regs = (c.writeAll (initializeLog p)).regs := by
  rw [writeAll_initializeLog_regs hp, writeAll_initializeLog_regs hp]

theorem InitParams.configured_silentAndReady {p : InitParams} (hp : p.wellFormed = true) (mask : Byte) :
    SilentAndReady p (p.configured mask) := by
  obtain ⟨⟨-, -, hnormal⟩, -⟩ := InitParams.wellFormed_iff.1 hp
  exact ⟨PerVoice.get_const p.voiceSilent, beq_false_of_ne hnormal, rfl⟩

/-! The order of the writes (R151). -/

/-- Step 1 is the only write to the interrupt mask before the last. -/
theorem initializeBody_eq_cons (p : InitParams) :
    ∃ ws, initializeBody p = ⟨.interruptEnableMask, 0x00⟩ :: ws ∧ ∀ w ∈ ws, w.reg ≠ .interruptEnableMask := by
  refine ⟨(initializeBody p).tail, rfl, ?_⟩
  simp [initializeBody, or_imp, forall_and]

theorem mem_initializeLog_voiceControl {p : InitParams} {v : Voice} {b : Byte} :
    ⟨.voiceControl v, b⟩ ∈ initializeLog p ↔ v ∈ p.voiceOrder ∧ b = p.voiceSilent := by
  simp [initializeLog, initializeBody, initializeLast, eq_comm (a := b)]

theorem initializeLog_orderKept {p : InitParams} (hp : p.wellFormed = true) : InitOrderKept p (initializeLog p) := by
  obtain ⟨⟨hvolume, hsilent, -⟩, hvoices, -⟩ := InitParams.wellFormed_iff.1 hp
  refine ⟨rfl, List.getLast?_concat, fun v => ?_, fun v b hb => ?_,
    [⟨.interruptEnableMask, 0x00⟩],
    p.voiceOrder.map (fun v => ⟨.voiceControl v, p.voiceSilent⟩) ++
      p.divisorOrder.map (fun v => ⟨.frequencyDivisor v, p.audf1Val⟩) ++
      [⟨.auxPlaybackState, p.auxInit⟩, ⟨.audioControlConfig, p.audctlVal⟩],
    [initializeLast p], ?_, ?_, ?_⟩
  · exact mem_initializeLog_voiceControl.2 ⟨Voice.mem_of_perm_all hvoices v, rfl⟩
  · obtain ⟨-, rfl⟩ := mem_initializeLog_voiceControl.1 hb
    exact ⟨rfl, hsilent, hvolume⟩
  · simp [initializeLog, initializeBody]
  · simp [initializeLast, ChipReg.isAudio]
  · simp [or_imp, forall_and]

/-! What the environment may do to the block. -/

/-- A step that takes neither a command nor a reset changes no port (R27). -/
theorem step_ports {s t : State} (h : step s = .next t) (hcommand : ∀ w rest, s.inputs ≠ .command w :: rest)
    (hreset : ∀ p rest, s.inputs ≠ .reset p :: rest) : t.ports = s.ports := by
  obtain ⟨-, -, rfl⟩ | ⟨w, rest, hi, -⟩ | ⟨p, rest, hi, -⟩ | ⟨r, v, rest, -, rfl⟩ | ⟨rest, -, rfl⟩ := step_next_cases h
  · rfl
  · exact absurd hi (hcommand w rest)
  · exact absurd hi (hreset p rest)
  · rfl
  · rfl

/-- Settles O49: the chip after the step is the one with the write, and no step but a command's and a reset's reaches the
ports. -/
theorem chipWriteChangesOneRegister : Obligations.ChipWriteChangesOneRegister :=
  ⟨fun s r v _ hi => ⟨s.chip.write ⟨r, v⟩, step_chipWrite hi, rfl, s.chip.regs.get_set_same r v,
    fun _ hr => s.chip.regs.get_set_other v hr⟩, fun _ _ => step_ports⟩

/-- Settles O50: the log is Initialize's own, and its registers do not depend on the chip it starts from. -/
theorem initializeEndsInTheConfiguredState : Obligations.InitializeEndsInTheConfiguredState := by
  intro p c hp
  obtain ⟨-, hvoices, hdivisors⟩ := InitParams.wellFormed_iff.1 hp
  exact ⟨⟨p.voiceOrder, p.divisorOrder, hvoices, hdivisors, List.append_assoc ..⟩,
    ⟨true, writeAll_initializeLog_regs hp c⟩, fun r => congrArg (·.get r) (writeAll_initializeLog_twice_regs hp c)⟩

/-- Settles O51: the log splits at its two writes to SystemControl. -/
theorem initializeKeepsItsStepOrder : Obligations.InitializeKeepsItsStepOrder :=
  fun _ c hp => ⟨initializeLog_orderKept hp, fun r => congrArg (·.get r) (writeAll_initializeLog_twice_regs hp c)⟩

/-- Settles O52: the registers are the configured ones before and after the last write, and between the first and the last
no write is to the interrupt mask. -/
theorem initializeSilencesBeforeInterrupts : Obligations.InitializeSilencesBeforeInterrupts := by
  intro p c hp
  refine ⟨?_, ?_, fun first later hsplit hne => ?_⟩
  · rw [writeAll_initializeLog_regs hp]
    exact InitParams.configured_silentAndReady hp p.irqMask
  · rw [writeAll_initializeBody_regs hp]
    exact InitParams.configured_silentAndReady hp 0
  · obtain ⟨ws, hbody, hws⟩ := initializeBody_eq_cons p
    obtain ⟨w, first, rfl⟩ := List.exists_cons_of_ne_nil hne
    obtain ⟨rfl, rfl⟩ := List.cons.inj (hbody.symm.trans hsplit)
    exact (c.write ⟨.interruptEnableMask, 0x00⟩).get_writeAll_of_not_written
      fun w hw => hws w (List.mem_append_left later hw)

end Sys2Proof
end

section
/-! The faults (60_exceptions.md): which fault an accepted word raises and what it records, that nothing else stops a step,
and the halted state. -/

namespace Sys2Proof.Machine

/-! R160: the faults of an accepted word. -/

/-- The table of R160: the fault that a word raises in a state, with the FINFO recorded for it. -/
inductive Raises (s : State) (w : Word) : FaultCause → Word → Prop
  | illegalWord {e : DecodeError} (hd : decode w = .error e) : Raises s w .illegalCommand w
  | lookupOutOfRange {n : Byte} (hd : decode w = .ok (.lookup n)) (hn : 61 < n.toNat) : Raises s w .indexOutOfRange w
  | genOutOfRange {n : Byte} (hd : decode w = .ok (.gen n)) (hn : 61 < n.toNat) : Raises s w .indexOutOfRange w
  | scaleInvalid {d : Byte} (hd : decode w = .ok (.scale d)) (hmv : s.mv = false) : Raises s w .multiplierNotValid w
  | verifyMismatch {n : NoteIndex} (hd : decode w = .ok .verify) (hn : firstMismatch s.rom = some n) :
      Raises s w .tableMismatch (mismatchInfo n)

/-- A word in the table of R160 raises its fault. -/
theorem Raises.execWord_eq {s : State} {w info : Word} {c : FaultCause} (h : Raises s w c info) :
    execWord w s = .next (raise c info s) := by
  cases h with
  | illegalWord hd => exact execWord_error hd s
  | lookupOutOfRange hd hn => rw [execWord_ok hd, exec_lookup_outOfRange hn, encode_of_decode hd]
  | genOutOfRange hd hn => rw [execWord_ok hd, exec_gen_outOfRange hn, encode_of_decode hd]
  | scaleInvalid hd hmv => rw [execWord_ok hd, exec_scale_invalid hmv, encode_of_decode hd]
  | verifyMismatch hd hn => rw [execWord_ok hd, exec_verify_mismatch hn]

/-- A word that halts the block is in the table of R160. -/
theorem exists_raises_of_halted {s t : State} {w : Word} (hs : s.halted = false) (h : execWord w s = .next t)
    (ht : t.halted = true) : ∃ c info, Raises s w c info := by
  rcases hd : decode w with e | i
  · exact ⟨_, _, .illegalWord hd⟩
  rw [execWord_ok hd] at h
  cases i with
  | nop =>
    cases h
    simp [hs] at ht
  | lookup n =>
    obtain ⟨k, -, rfl⟩ | ⟨hn, -⟩ := exec_lookup_cases h
    · simp [hs] at ht
    · exact ⟨_, _, .lookupOutOfRange hd hn⟩
  | lookuprel e b =>
    cases h
    simp [hs] at ht
  | gen n =>
    obtain ⟨k, -, rfl⟩ | ⟨hn, -⟩ := exec_gen_cases h
    · simp [hs] at ht
    · exact ⟨_, _, .genOutOfRange hd hn⟩
  | verify =>
    obtain ⟨-, rfl⟩ | ⟨n, hn, -⟩ := exec_verify_cases h
    · simp [hs] at ht
    · exact ⟨_, _, .verifyMismatch hd hn⟩
  | scale d =>
    obtain ⟨-, rfl⟩ | ⟨hmv, -⟩ := exec_scale_cases h
    · simp [hs] at ht
    · exact ⟨_, _, .scaleInvalid hd hmv⟩

/-- An accepted word either completes, with FINFO as it was, or raises one fault of the table of R160. -/
theorem execWord_next_cases {s t : State} {w : Word} (hs : s.halted = false) (h : execWord w s = .next t) :
    (t.cause = 0 ∧ t.finfo = s.finfo) ∨ ∃ c info, Raises s w c info ∧ t = raise c info s := by
  rcases ht : t.halted
  · refine .inl ⟨(not_halted_iff_cause t).1 ht, ?_⟩
    rcases hd : decode w with e | i
    · rw [execWord_error hd] at h
      cases h
      simp at ht
    · rw [execWord_ok hd] at h
      exact exec_completed_finfo h ht
  · obtain ⟨c, info, hr⟩ := exists_raises_of_halted hs h ht
    rw [hr.execWord_eq] at h
    cases h
    exact .inr ⟨c, info, hr, rfl⟩

theorem FaultCause.code_ne_zero (c : FaultCause) : c.code ≠ 0 := by
  cases c <;> decide

/-- CAUSE becomes the code of a fault exactly when the word raises that fault. -/
theorem execWord_cause_iff {s t : State} {w : Word} (hs : s.halted = false) (h : execWord w s = .next t)
    (c : FaultCause) : t.cause = c.code ↔ ∃ info, Raises s w c info := by
  constructor
  · intro hc
    obtain ⟨h0, -⟩ | ⟨d, info, hr, rfl⟩ := execWord_next_cases hs h
    · exact absurd (hc.symm.trans h0) c.code_ne_zero
    · rw [raise_cause] at hc
      exact ⟨info, c.code_injective d hc.symm ▸ hr⟩
  · rintro ⟨info, hr⟩
    rw [hr.execWord_eq] at h
    cases h
    exact raise_cause ..

/-! The condition of each fault, read off the table of R160. -/

theorem exists_raises_illegalCommand_iff {s : State} {w : Word} :
    (∃ info, Raises s w .illegalCommand info) ↔ ∃ e, decode w = .error e where
  mp | ⟨_, .illegalWord hd⟩ => ⟨_, hd⟩
  mpr | ⟨_, hd⟩ => ⟨_, .illegalWord hd⟩

theorem exists_raises_indexOutOfRange_iff {s : State} {w : Word} :
    (∃ info, Raises s w .indexOutOfRange info) ↔
      ∃ n : Byte, 61 < n.toNat ∧ (decode w = .ok (.lookup n) ∨ decode w = .ok (.gen n)) where
  mp
    | ⟨_, .lookupOutOfRange hd hn⟩ => ⟨_, hn, .inl hd⟩
    | ⟨_, .genOutOfRange hd hn⟩ => ⟨_, hn, .inr hd⟩
  mpr
    | ⟨_, hn, .inl hd⟩ => ⟨_, .lookupOutOfRange hd hn⟩
    | ⟨_, hn, .inr hd⟩ => ⟨_, .genOutOfRange hd hn⟩

theorem exists_raises_multiplierNotValid_iff {s : State} {w : Word} :
    (∃ info, Raises s w .multiplierNotValid info) ↔ s.mv = false ∧ ∃ d, decode w = .ok (.scale d) where
  mp | ⟨_, .scaleInvalid hd hmv⟩ => ⟨hmv, _, hd⟩
  mpr | ⟨hmv, _, hd⟩ => ⟨_, .scaleInvalid hd hmv⟩

theorem exists_firstMismatch_iff {rom : Memory} :
    (∃ n, firstMismatch rom = some n) ↔ ∃ n : NoteIndex, tblRead rom n ≠ generatedEntry n.val := by
  rw [← Option.ne_none_iff_exists', ne_eq, firstMismatch_none, RomConforms, not_forall]

theorem exists_raises_tableMismatch_iff {s : State} {w : Word} :
    (∃ info, Raises s w .tableMismatch info) ↔
      decode w = .ok .verify ∧ ∃ n : NoteIndex, tblRead s.rom n ≠ generatedEntry n.val := by
  rw [← exists_firstMismatch_iff]
  exact ⟨fun | ⟨_, .verifyMismatch hd hn⟩ => ⟨hd, _, hn⟩, fun | ⟨hd, _, hn⟩ => ⟨_, .verifyMismatch hd hn⟩⟩

/-! The FINFO of each fault. -/

theorem Raises.info_eq_word {s : State} {w info : Word} {c : FaultCause} (h : Raises s w c info)
    (hc : c ≠ .tableMismatch) : info = w := by
  cases h with
  | verifyMismatch => exact absurd rfl hc
  | _ => rfl

theorem Raises.info_of_tableMismatch {s : State} {w info : Word} (h : Raises s w .tableMismatch info) :
    ∃ n : NoteIndex, tblRead s.rom n ≠ generatedEntry n.val ∧
      (∀ k : NoteIndex, k < n → tblRead s.rom k = generatedEntry k.val) ∧
      info = BitVec.ofNat 24 (0x040000 + n.val * 256) := by
  cases h with
  | verifyMismatch _ hn =>
    obtain ⟨hne, hbelow⟩ := (firstMismatch_some ..).1 hn
    exact ⟨_, hne, hbelow, mismatchInfo_eq _⟩

/-! R174: nothing but the halted state stops a step. -/

theorem exists_execWord_next (w : Word) (s : State) : ∃ t, execWord w s = .next t := by
  rcases hd : decode w with e | i
  · exact ⟨_, execWord_error hd s⟩
  · obtain ⟨t, ht, -⟩ := exec_effect i s
    exact ⟨t, (execWord_ok hd s).trans ht⟩

/-- A step has a next state, or it runs on a halted block and answers what the block has recorded (R164, R174). -/
theorem step_cases (s : State) :
    (∃ t, step s = .next t) ∨ (s.halted = true ∧ step s = .fault (haltedFault s)) := by
  rcases hi : s.inputs with _ | ⟨w | p | ⟨r, v⟩ | _, rest⟩
  · rcases hh : s.halted
    · exact .inl ⟨s, step_noInput hi hh⟩
    · exact .inr ⟨rfl, step_noInput_halted hi hh⟩
  · rcases hh : s.halted
    · obtain ⟨t, ht⟩ := exists_execWord_next w (acceptCommand rest s)
      exact .inl ⟨t, (step_command hi hh).trans ht⟩
    · exact .inr ⟨rfl, step_command_halted hi hh⟩
  · exact .inl ⟨_, step_resetInput hi⟩
  · exact .inl ⟨_, step_chipWrite hi⟩
  · exact .inl ⟨_, step_idle hi⟩

/-! R163: the step that halts the block. -/

/-- A step that halts the block took a word and raised one fault of the table of R160. -/
theorem step_raises {s t : State} (h : step s = .next t) (hs : s.halted = false) (ht : t.halted = true) :
    ∃ w rest c info, s.inputs = .command w :: rest ∧ Raises (acceptCommand rest s) w c info ∧
      t = raise c info (acceptCommand rest s) := by
  obtain ⟨-, -, rfl⟩ | ⟨w, rest, hi, -⟩ | ⟨p, rest, -, rfl⟩ | ⟨r, v, rest, -, rfl⟩ | ⟨rest, -, rfl⟩ := step_next_cases h
  case inr.inl =>
    rw [step_command hi hs] at h
    obtain ⟨h0, -⟩ | ⟨c, info, hr, rfl⟩ := execWord_next_cases (s := acceptCommand rest s) hs h
    · exact absurd h0 ((halted_iff_cause t).1 ht)
    · exact ⟨w, rest, c, info, hi, hr, rfl⟩
  all_goals simp [hs] at ht

/-! R164, R165: the halted state. -/

/-- A step of a halted block that is not a reset takes one action of the host and changes nothing else but the chip. -/
theorem step_of_halted {s t : State} (hs : s.halted = true) (h : step s = .next t)
    (hreset : ∀ p rest, s.inputs ≠ .reset p :: rest) :
    t = { s with inputs := s.inputs.tail, chip := t.chip } := by
  obtain ⟨-, hh, -⟩ | ⟨w, rest, -, hh, -⟩ | ⟨p, rest, hi, -⟩ | ⟨r, v, rest, hi, rfl⟩ | ⟨rest, hi, rfl⟩ := step_next_cases h
  · simp [hs] at hh
  · simp [hs] at hh
  · exact absurd hi (hreset p rest)
  · rw [hi]
    rfl
  · rw [hi]
    rfl

/-- `t` is `s` but for the chip and the host's list, and no reset is to come: what a halted block keeps along a run. -/
def StuckAt (s t : State) : Prop :=
  t = { s with inputs := t.inputs, chip := t.chip } ∧ ∀ p, HostInput.reset p ∉ t.inputs

/-- A step of a halted block with no reset to come leaves it where it is. -/
theorem StuckAt.step {s t u : State} (hs : s.halted = true) (ht : StuckAt s t) (h : step t = .next u) : StuckAt s u := by
  obtain ⟨heq, hreset⟩ := ht
  have hhalted : t.halted = true := by
    rw [heq]
    exact hs
  have hu := step_of_halted hhalted h fun p rest hi => hreset p (by simp [hi])
  have hinputs : u.inputs = t.inputs.tail := congrArg State.inputs hu
  refine ⟨?_, fun p hp => hreset p (List.mem_of_mem_tail (hinputs ▸ hp))⟩
  rw [← hinputs, heq] at hu
  exact hu

end Sys2Proof.Machine

namespace Sys2Proof
open Machine

/-- Settles O30: the table of R160 gives each cause its condition and its FINFO, and a word outside it completes. -/
theorem eachCauseHasItsCondition : Obligations.EachCauseHasItsCondition := by
  intro s t w rest hi hs h
  rw [step_command hi hs] at h
  have hcause := execWord_cause_iff (s := acceptCommand rest s) hs h
  refine ⟨(hcause .illegalCommand).trans exists_raises_illegalCommand_iff,
    (hcause .indexOutOfRange).trans exists_raises_indexOutOfRange_iff,
    (hcause .multiplierNotValid).trans exists_raises_multiplierNotValid_iff,
    (hcause .tableMismatch).trans exists_raises_tableMismatch_iff, ?_⟩
  obtain ⟨h0, hfinfo⟩ | ⟨c, info, hr, rfl⟩ := execWord_next_cases (s := acceptCommand rest s) hs h
  · exact ⟨by simp [h0], by simp [h0], by simp [h0], fun _ => hfinfo⟩
  · rw [raise_cause, raise_finfo]
    refine ⟨c.code_range.2, fun hc => hr.info_eq_word ?_, fun hc => ?_, fun hc => absurd hc c.code_ne_zero⟩
    · rintro rfl
      revert hc
      decide
    · obtain rfl : c = .tableMismatch := c.code_injective _ hc
      exact hr.info_of_tableMismatch

/-- Settles O29: the step raised a fault, and raising one writes CAUSE and FINFO. -/
theorem faultsAreRecordedPrecisely : Obligations.FaultsAreRecordedPrecisely := by
  intro s t h hs ht
  obtain ⟨w, rest, c, info, hi, -, rfl⟩ := step_raises h hs ht
  refine ⟨w, rest, hi, rfl, statusAfterFault_and_1F c _, ?_⟩
  rw [raise_cause]
  exact c.code_range

/-- Settles O10: a step has a next state or is the fault of a halted block. -/
theorem everyAcceptedCommandCompletes : Obligations.EveryAcceptedCommandCompletes := by
  refine ⟨fun s r h => ?_, fun s hs => ?_, fun s f h => ?_⟩
  · obtain ⟨t, ht⟩ | ⟨-, hf⟩ := step_cases s
    · simp [ht] at h
    · simp [hf] at h
  · obtain ht | ⟨hh, -⟩ := step_cases s
    · exact ht
    · simp [hs] at hh
  · obtain ⟨t, ht⟩ | ⟨hh, hf⟩ := step_cases s
    · simp [ht] at h
    · rw [hf] at h
      cases h
      exact ⟨hh, rfl⟩

/-- Settles O32: the ports read CAUSE, a word meets the halted block's fault, and any other step but a reset keeps all. -/
theorem haltedBlockAcceptsNothing : Obligations.HaltedBlockAcceptsNothing := by
  refine fun s hs => ⟨hs, by simp [State.ports, hs], fun w rest hi => step_command_halted hi hs, fun t h hreset => ?_⟩
  have ht := step_of_halted hs h hreset
  have hinputs : t.inputs = s.inputs.tail := congrArg State.inputs ht
  rwa [← hinputs] at ht

/-- Settles O33: every step of a run keeps the halted block where it is; a reset step writes the reset values. -/
theorem onlyResetLeavesTheHaltedState : Obligations.OnlyResetLeavesTheHaltedState := by
  refine ⟨fun k s t hs hreset h => ?_, fun s p rest hi => ?_⟩
  · obtain ⟨heq, -⟩ := run_keeps (StuckAt s) (fun _ _ => StuckAt.step hs) k s t ⟨rfl, hreset⟩ h
    rw [heq]
    exact ⟨hs, rfl, rfl, rfl, rfl, rfl⟩
  · exact ⟨_, step_resetInput hi, resetBlock_halted _, rfl, rfl, rfl, rfl, rfl, rfl⟩

/-- Settles O31: the third byte decides whether the word decodes, and only then is the index compared. -/
theorem decodingIsCheckedFirst : Obligations.DecodingIsCheckedFirst := by
  intro s n b rest hi hs hn
  rw [step_command hi hs]
  by_cases hb : b = 0
  · subst hb
    have hr : Raises (acceptCommand rest s) (encode (.lookup n)) .indexOutOfRange _ :=
      .lookupOutOfRange (decode_encode _) hn
    exact ⟨_, hr.execWord_eq, raise_cause ..⟩
  · obtain ⟨e, hd⟩ : ∃ e, decode (joinFields 0x01 n b) = .error e :=
      exists_decode_error_iff.2 (.inr (.inr (by simpa using hb)))
    rw [if_neg hb]
    exact ⟨_, execWord_error hd _, raise_cause ..⟩

end Sys2Proof
end

section
/-! Reset and the order of commands (70_reset_and_hazards.md): what only reset clears, which command streams complete, and
what the block does while no command comes. -/

namespace Sys2Proof.Machine

/-! R24, R190: the flags that no command clears. -/

/-- No command clears MV or VF: a write-back and a successful VERIFY set one of them, and every other update keeps both. -/
theorem exec_keeps_mv_and_vf {i : Instr} {s t : State} (h : exec i s = .next t) :
    (s.mv = true → t.mv = true) ∧ (s.vf = true → t.vf = true) := by
  obtain rfl | ⟨k, m, cl, rfl, -⟩ | ⟨d, -, rfl⟩ | ⟨-, rfl⟩ | ⟨c, info, -, rfl⟩ := exec_next_cases h
  · exact ⟨id, id⟩
  all_goals simp

/-- No step but a reset clears MV or VF (R190). -/
theorem step_keeps_mv_and_vf {s t : State} (h : step s = .next t) (hreset : ∀ p rest, s.inputs ≠ .reset p :: rest) :
    (s.mv = true → t.mv = true) ∧ (s.vf = true → t.vf = true) := by
  obtain ⟨-, -, rfl⟩ | ⟨w, rest, -, -, executed | illegal⟩ | ⟨p, rest, hi, -⟩ | ⟨r, v, rest, -, rfl⟩ | ⟨rest, -, rfl⟩ :=
    step_next_cases h
  · exact ⟨id, id⟩
  · obtain ⟨i, -, hx⟩ := executed
    exact exec_keeps_mv_and_vf (s := acceptCommand rest s) hx
  · obtain ⟨e, -, rfl⟩ := illegal
    simp
  · exact absurd hi (hreset p rest)
  · exact ⟨id, id⟩
  · exact ⟨id, id⟩

end Sys2Proof.Machine

namespace Sys2Proof
open Machine

/-! R193, R195: the streams of commands that complete. -/

/-- On a conforming table a stream is legal when its first command raises no fault and the rest is legal for the MV that this
command leaves (R193). -/
theorem legalStream_cons_iff {i : Instr} {is : List Instr} {s t : State} (hs : s.halted = false) (hrom : RomConforms s.rom)
    (h : exec i s = .next t) : LegalStream s.mv (i :: is) ↔ t.halted = false ∧ LegalStream t.mv is := by
  cases i with
  | nop =>
    cases h
    simp [LegalStream, hs]
  | lookup n =>
    obtain ⟨k, hk, rfl⟩ | ⟨hn, rfl⟩ := exec_lookup_cases h
    · simp [LegalStream, hs, hk, Nat.le_of_lt_succ (noteIndex_lt k)]
    · simp [LegalStream, hn]
  | lookuprel e b =>
    cases h
    simp [LegalStream, hs]
  | gen n =>
    obtain ⟨k, hk, rfl⟩ | ⟨hn, rfl⟩ := exec_gen_cases h
    · simp [LegalStream, hs, hk, Nat.le_of_lt_succ (noteIndex_lt k)]
    · simp [LegalStream, hn]
  | verify =>
    rw [exec_verify_conforming hrom] at h
    cases h
    simp [LegalStream, hs]
  | scale d =>
    obtain ⟨hmv, rfl⟩ | ⟨hmv, rfl⟩ := exec_scale_cases h
    · simp [LegalStream, hs, hmv]
    · simp [LegalStream, hmv]

/-- A run that completes does so from the state after its first step. -/
theorem runCompletes_succ {s u t : State} (h : step s = .next u) (k : Nat) :
    RunCompletes (k + 1) s t ↔ RunCompletes k u t := by
  rw [RunCompletes, RunCompletes, run_succ_next h]

/-- No run over command words completes from a halted block, because only reset leaves the halted state (R165). -/
theorem not_runCompletes_of_halted {is : List Instr} {s t : State} {k : Nat} (hi : s.inputs = commandInputs is)
    (hs : s.halted = true) : ¬ RunCompletes k s t := by
  rintro ⟨hrun, -, ht⟩
  have hreset : ∀ p, HostInput.reset p ∉ s.inputs := by simp [hi, commandInputs]
  obtain ⟨stays, -⟩ := onlyResetLeavesTheHaltedState
  obtain ⟨hhalted, -⟩ := stays k s t hs hreset hrun
  simp [ht] at hhalted

/-- From any block that is not halted, over a conforming table, the legal streams are those that run to their normal end. -/
theorem legalStream_iff_runCompletes (is : List Instr) {s : State} (hi : s.inputs = commandInputs is)
    (hs : s.halted = false) (hrom : RomConforms s.rom) :
    LegalStream s.mv is ↔ ∃ t, RunCompletes is.length s t ∧ t.pos = s.pos + is.length := by
  induction is generalizing s with
  | nil => exact iff_of_true trivial ⟨s, ⟨rfl, hi, hs⟩, rfl⟩
  | cons i is ih =>
    obtain ⟨u, hu, -⟩ := exec_effect i (acceptCommand (commandInputs is) s)
    have hstep : step s = .next u := (step_command hi hs).trans ((execWord_ok (decode_encode i) _).trans hu)
    obtain ⟨hurom, -, huinputs, hupos⟩ := exec_keeps_environment hu
    have hlegal : LegalStream s.mv (i :: is) ↔ u.halted = false ∧ LegalStream u.mv is :=
      legalStream_cons_iff (s := acceptCommand (commandInputs is) s) hs hrom hu
    simp only [hlegal, List.length_cons, runCompletes_succ hstep]
    rcases hh : u.halted
    · rw [ih huinputs hh (hurom ▸ hrom), hupos, acceptCommand_pos, Nat.add_right_comm, Nat.add_assoc]
      simp
    · simp [not_runCompletes_of_halted huinputs hh]

/-- Settles O13: no step but a reset clears MV or VF, and a block with a recorded CAUSE is halted, so it keeps its
registers. -/
theorem onlyResetClearsStickyState : Obligations.OnlyResetClearsStickyState := by
  intro s t h hreset
  obtain ⟨hmv, hvf⟩ := step_keeps_mv_and_vf h hreset
  refine ⟨hmv, hvf, fun hcause => ?_⟩
  rw [step_of_halted ((halted_iff_cause s).2 hcause) h hreset]
  exact ⟨rfl, rfl⟩

/-- Settles O47: the start state is not halted, its MV is clear and its position is 0. -/
theorem legalStreamsAreThoseThatComplete : Obligations.LegalStreamsAreThoseThatComplete := by
  intro rom chip is hrom
  simpa using legalStream_iff_runCompletes is (s := startState rom chip (commandInputs is)) rfl (startState_halted ..) hrom

/-- Settles O53: the writes of the body, the idle moments of the settling delay and the last write, run one after another. -/
theorem initializeLeavesTheBlockAlone : Obligations.InitializeLeavesTheBlockAlone := by
  intro p s rest hi
  have hlength : (initializeInputs p).length = (initializeBody p).length + (p.settleDelay + 1) := by
    simp [initializeInputs]
  have hinputs : s.inputs = (initializeBody p).map ChipWrite.toInput ++
      (List.replicate p.settleDelay .idle ++ ([initializeLast p].map ChipWrite.toInput ++ rest)) := by
    simp [hi, initializeInputs]
  rw [hlength, run_add _ _ _ _ (run_chipWrites _ s _ hinputs), run_add _ _ _ _ (run_idles _ _ _ rfl),
    initializeLog, Chip.writeAll_append]
  exact run_chipWrites [initializeLast p] _ rest rfl

/-- Settles O11: with an empty list a step is the state again or the halted block's fault, and an idle moment is only taken
off the list. -/
theorem blockKeepsItsStateWithoutCommands : Obligations.BlockKeepsItsStateWithoutCommands :=
  ⟨fun _ => step_noInput, fun _ => step_noInput_halted, fun _ _ => step_idle⟩

end Sys2Proof
end

section
/-! The decoder's vectors (95_test_vectors.md section 2.7): a legal vector is the word of its command, and an illegal one has
fields that R76 names. -/

namespace Sys2Proof

/-- The vectors write `Illegal` as `isOk = false`, R76 as an error. -/
theorem isOk_decode_eq_false_iff {w : Word} : (decode w).isOk = false ↔ ∃ e, decode w = .error e := by
  cases decode w <;> simp [Except.isOk, Except.toBool]

/-- Settles O6: the seven legal words are encodings; the illegal ones are `LOOKUP` with a third byte, `VERIFY` with a second
byte and an unassigned opcode. -/
theorem sampleWordsDecode : Obligations.SampleWordsDecode := by
  have legal {w : Word} {i : Instr} : w = encode i → decode w = .ok i := decode_eq_ok_iff.2
  have lookupThirdByte : (decode 0x0100FF).isOk = false :=
    isOk_decode_eq_false_iff.2 (exists_decode_error_iff.2 (.inr (.inr (by decide))))
  have verifySecondByte : (decode 0x040100).isOk = false :=
    isOk_decode_eq_false_iff.2 (exists_decode_error_iff.2 (.inr (.inl (by decide))))
  have unassignedOpcode : (decode 0x060000).isOk = false :=
    isOk_decode_eq_false_iff.2 (exists_decode_error_iff.2 (.inl (by decide)))
  exact ⟨legal rfl, legal rfl, legal rfl, legal rfl, legal rfl, legal rfl, legal rfl,
    lookupThirdByte, verifySecondByte, unassignedOpcode⟩

end Sys2Proof
end
